-- ==== Sys2Proof/Word.lean ====
section
/-! DEFINITION. The words and value types of the block: command words (30_encoding R60), handles
(00_scope R5), Frames (10_state R10) and the abstract records of the P-port (30_encoding R72). -/

namespace Sys2Proof

abbrev Byte := BitVec 8

/-- One command word, `cw[111:0]` (R60). -/
abbrev CmdWord := BitVec 112

/-- A peripheral handle: an opaque value of `HANDLE_W` bits (R5), zero-extended to the 108 operand
bits of format H (R61), so that every `HANDLE_W` the format can carry is covered (log 2). -/
abbrev Handle := BitVec 108

/-- The array `data[0] .. data[7]` of a Frame (R10). -/
@[ext] structure Payload where
  b0 : Byte
  b1 : Byte
  b2 : Byte
  b3 : Byte
  b4 : Byte
  b5 : Byte
  b6 : Byte
  b7 : Byte
deriving DecidableEq, Repr

/-- A Frame, 105 bits (R10). The type holds invalid values too (R11). -/
@[ext] structure Frame where
  id : BitVec 32
  extended : Bool
  dlc : BitVec 8
  data : Payload
deriving DecidableEq, Repr

/-- Transmit and receive header of the P-port (R72); `ide` is one bit, true = extended.
The 4-bit `dlc` is the spec's own general knowledge G1 (log 15). -/
@[ext] structure Header where
  ide : Bool
  stdId : BitVec 11
  extId : BitVec 29
  dlc : BitVec 4
deriving DecidableEq, Repr

/-- The `Some (hdr, data)` answer of `Env.GetRx` (R54). -/
@[ext] structure RxMessage where
  hdr : Header
  data : Payload
deriving DecidableEq, Repr

/-- The filter record of `Env.CfgFilter` (R72); a mask bit of 0 means "do not compare". -/
structure Filter where
  fltId : BitVec 32
  fltMask : BitVec 32
deriving DecidableEq, Repr

/-- The notification categories of `Env.ActNotify` (R72). -/
inductive Notification where
  | rxPending
  | busError
  | busOff
deriving DecidableEq, Repr

/-- The all-zero payload. -/
def Payload.zero : Payload := ⟨0, 0, 0, 0, 0, 0, 0, 0⟩

/-- The all-zero frame: id 0, standard, length 0. -/
def Frame.zero : Frame := ⟨0, false, 0, Payload.zero⟩

end Sys2Proof
end

