-- ==== Sys2Proof/Config.lean ====
section
/-! DEFINITION. Parameters of the block (00_scope section 4), the constants of 00_scope R4, and the
free values that stand for peripheral answers nobody placed (log 5). -/

namespace Sys2Proof

/-- `LEVEL` (R6): the Bounded Frame Queue alone, or the Bus Driver around one queue. -/
inductive Level where
  | queue
  | driver
deriving DecidableEq, Repr

/-- The construction parameters (00_scope section 4): fixed when the block is built. -/
structure Params where
  capacity : Nat
  handleW : Nat
  level : Level
  parallelDomains : Bool
deriving DecidableEq, Repr

namespace Config

/-- `C` of this hardware (R2). -/
def capacity : Nat := 32

/-- `HANDLE_W`, its default (R5). -/
def handleW : Nat := 32

/-- The parameters this hardware takes (00_scope section 4, column "this hardware"). -/
def params : Params := ⟨capacity, handleW, .driver, false⟩

/-- `STD_MAX` (R4). -/
def stdMax : Nat := 0x7FF

/-- `EXT_MAX` (R4). -/
def extMax : Nat := 0x1FFFFFFF

/-- `DLC_MAX` (R4). -/
def dlcMax : Nat := 8

/-- `IDX_W = max(1, ceil(log2 C))` (R3). -/
def idxW (c : Nat) : Nat := max 1 (Nat.clog 2 c)

/-- `CNT_W = ceil(log2(C+1))` (R3). -/
def cntW (c : Nat) : Nat := Nat.clog 2 (c + 1)

/-- FREE VALUE (log 5): the answer to the n-th peripheral call that finds no answer placed, for the
four calls that answer a `bool` (R54, D28: an unconstrained draw). -/
opaque freeAck : Nat → Bool

/-- FREE VALUE (log 5): the same for `Env.GetRx`. -/
opaque freeRx : Nat → Option RxMessage

end Config

end Sys2Proof
end

