-- ==== Sys2Proof/Syntax.lean ====
section
/-! DEFINITION. The nine operations (30_encoding R63), the two execution domains (60_exceptions R127)
and the five ports (30_encoding R69). -/

namespace Sys2Proof

/-- The two execution domains (R127): the interrupt domain produces, the task domain consumes. -/
inductive Domain where
  | task
  | interrupt
deriving DecidableEq, Repr

/-- The five ports (R69). -/
inductive Port where
  | w
  | r
  | t
  | i
  | p
deriving DecidableEq, Repr

/-- The operations, one constructor per row of the opcode table, with the operands of R61. -/
inductive Instr where
  | pop
  | size
  | recv
  | init (h : Handle)
  | send (f : Frame)
  | push (f : Frame)
  | rxirq (src : Handle)
  | errirq (src : Handle)
  | boffirq (src : Handle)
deriving DecidableEq, Repr

end Sys2Proof
end

