-- ==== Sys2Proof/WellFormed.lean ====
section
/-! DEFINITION. Which parameters a block can be built with, and which operations have a command word:
a handle must fit `HANDLE_W` bits (00_scope R5, 30_encoding R61); no other operand field is restricted
(30_encoding R65: the decoder checks no range). -/

namespace Sys2Proof

/-- The handle is a value of `hw` bits (R5). -/
def handleFits (hw : Nat) (h : Handle) : Bool := decide (h.toNat < 2 ^ hw)

/-- `C >= 1` (R2), `C < 2^32` so that SIZE's `zext_32` is an extension (R68, D24; log 16),
`HANDLE_W` bits fit format H (R61). -/
def Params.wf (p : Params) : Bool :=
  decide (1 ≤ p.capacity) && decide (p.capacity < 2 ^ 32) &&
    decide (1 ≤ p.handleW) && decide (p.handleW ≤ 108)

/-- An operation that a command word can carry at handle width `hw`. -/
def Instr.wellFormed (hw : Nat) (i : Instr) : Bool :=
  match i with
  | .pop => true
  | .size => true
  | .recv => true
  | .init h => handleFits hw h
  | .send _ => true
  | .push _ => true
  | .rxirq src => handleFits hw src
  | .errirq src => handleFits hw src
  | .boffirq src => handleFits hw src

end Sys2Proof
end

