-- ==== Sys2Proof/Decode.lean ====
section
/-! DEFINITION. Command words (30_encoding): the frame image (R62), the decoder (R60, R61, R63, R65,
R66), then the encoder written from the same tables, and the opcode map's columns (R63). -/

namespace Sys2Proof

/-- Why a command word is a reserved encoding (R66 a, b). -/
inductive DecodeError where
  | reservedOpcode (op : BitVec 4)
  | nonZeroMbz
deriving DecidableEq, Repr

/-- `data` as 64 bits, `data[i]` at bits `8i+7 : 8i` (R62, D32). -/
def payloadBits (d : Payload) : BitVec 64 :=
  d.b7 ++ d.b6 ++ d.b5 ++ d.b4 ++ d.b3 ++ d.b2 ++ d.b1 ++ d.b0

/-- The payload read from the 64-bit data field (R62, R65). -/
def payloadOfBits (w : BitVec 64) : Payload :=
  { b0 := w.extractLsb' 0 8
    b1 := w.extractLsb' 8 8
    b2 := w.extractLsb' 16 8
    b3 := w.extractLsb' 24 8
    b4 := w.extractLsb' 32 8
    b5 := w.extractLsb' 40 8
    b6 := w.extractLsb' 48 8
    b7 := w.extractLsb' 56 8 }

/-- The 108-bit frame image (R62): id 31:0, extended 32, zero 35:33, dlc 43:36, data 107:44. -/
def frameImage (f : Frame) : BitVec 108 :=
  payloadBits f.data ++ f.dlc ++ 0#3 ++ BitVec.ofBool f.extended ++ f.id

/-- The Frame whose image is `fi`; bits 35:33 are not looked at (R62, R65). -/
def frameOfImage (fi : BitVec 108) : Frame :=
  { id := fi.extractLsb' 0 32
    extended := fi.getLsbD 32
    dlc := fi.extractLsb' 36 8
    data := payloadOfBits (fi.extractLsb' 44 64) }

/-- `op = cw[3:0]` (R60). -/
def opcodeOf (cw : CmdWord) : BitVec 4 := cw.extractLsb' 0 4

/-- The 108 bits of `cw` above the opcode (R60). -/
def operandOf (cw : CmdWord) : BitVec 108 := cw.extractLsb' 4 108

/-- Format N (R61): bits 111:4 must be zero. -/
def decodeN (i : Instr) (cw : CmdWord) : Except DecodeError Instr :=
  if operandOf cw = 0 then .ok i else .error .nonZeroMbz

/-- Format H (R61): the handle in `HANDLE_W` bits from bit 4 up, the bits above it zero. -/
def decodeH (hw : Nat) (mk : Handle → Instr) (cw : CmdWord) : Except DecodeError Instr :=
  if handleFits hw (operandOf cw) then .ok (mk (operandOf cw)) else .error .nonZeroMbz

/-- Format F (R61): the frame image, bits 39:37 of the word zero. -/
def decodeF (mk : Frame → Instr) (cw : CmdWord) : Except DecodeError Instr :=
  if cw.extractLsb' 37 3 = 0 then .ok (mk (frameOfImage (operandOf cw))) else .error .nonZeroMbz

/-- The decoder, total on command words (R63, R66): a reserved encoding is rejected by its kind. -/
def decode (hw : Nat) (cw : CmdWord) : Except DecodeError Instr :=
  match (opcodeOf cw).toNat with
  | 0x1 => decodeN .pop cw
  | 0x2 => decodeN .size cw
  | 0x3 => decodeN .recv cw
  | 0x4 => decodeH hw .init cw
  | 0x5 => decodeF .send cw
  | 0x8 => decodeF .push cw
  | 0x9 => decodeH hw .rxirq cw
  | 0xA => decodeH hw .errirq cw
  | 0xB => decodeH hw .boffirq cw
  | _ => .error (.reservedOpcode (opcodeOf cw))

/-- The opcode column of R63. -/
def Instr.opcode (i : Instr) : BitVec 4 :=
  match i with
  | .pop => 0x1
  | .size => 0x2
  | .recv => 0x3
  | .init _ => 0x4
  | .send _ => 0x5
  | .push _ => 0x8
  | .rxirq _ => 0x9
  | .errirq _ => 0xA
  | .boffirq _ => 0xB

/-- The 108 operand bits of an operation's command word (R61). -/
def Instr.operand (i : Instr) : BitVec 108 :=
  match i with
  | .pop => 0
  | .size => 0
  | .recv => 0
  | .init h => h
  | .send f => frameImage f
  | .push f => frameImage f
  | .rxirq src => src
  | .errirq src => src
  | .boffirq src => src

/-- The command word of an operation (R60, R61). -/
def encode (i : Instr) : CmdWord := i.operand ++ i.opcode

/-- The port column of R63. -/
def Instr.port (i : Instr) : Port :=
  match i with
  | .pop => .r
  | .size => .r
  | .recv => .t
  | .init _ => .t
  | .send _ => .t
  | .push _ => .w
  | .rxirq _ => .i
  | .errirq _ => .i
  | .boffirq _ => .i

/-- The domain column of R63: the agent that executes the operation (R64). -/
def Instr.domain (i : Instr) : Domain :=
  match i with
  | .pop => .task
  | .size => .task
  | .recv => .task
  | .init _ => .task
  | .send _ => .task
  | .push _ => .interrupt
  | .rxirq _ => .interrupt
  | .errirq _ => .interrupt
  | .boffirq _ => .interrupt

/-- The level column of R63: the block whose external ports take the operation (R6, R69). -/
def Instr.level (i : Instr) : Level :=
  match i with
  | .pop => .queue
  | .size => .queue
  | .recv => .driver
  | .init _ => .driver
  | .send _ => .driver
  | .push _ => .queue
  | .rxirq _ => .driver
  | .errirq _ => .driver
  | .boffirq _ => .driver

/-- The host's entry: the operation of a table word of `nbits` bits, at this hardware's `HANDLE_W`.
Bits above `nbits` are zero; the command word has 112 bits (R60). -/
def decodeTableWord (nbits w : Nat) : Option Instr :=
  if nbits ≤ 112 then (decode Config.handleW (BitVec.ofNat 112 (w % 2 ^ nbits))).toOption else none

end Sys2Proof
end

