-- ==== Sys2Proof/Machine/State.lean ====
section
/-! DEFINITION. The state of the block as plain data (10_state), its faults and refusals, and the state
after construction (10_state R30, 70_reset R140, R141). -/

namespace Sys2Proof.Machine

/-- `drv_state` (R22): exactly two states. -/
inductive DrvState where
  | uninitialized
  | ready
deriving DecidableEq, Repr

/-- The bit value of `drv_state` (R22). -/
def DrvState.bit (d : DrvState) : BitVec 1 :=
  match d with
  | .uninitialized => 0
  | .ready => 1

/-- `t_phase` (R26 a): the next micro-step of the task-domain operation in progress. -/
inductive TPhase where
  | idle
  | p2
  | p3
  | p4
  | i2
  | i3
  | t2
deriving DecidableEq, Repr

/-- The next micro-step of the PUSH in progress, with PARALLEL_DOMAINS = true (70_reset R150 d, log 9). -/
inductive IPhase where
  | idle
  | w1
  | w2
  | w3
  | w4
deriving DecidableEq, Repr

/-- `slots` (R14, 20_memory R40): slot index and the Frame the slot holds, for the slots that have been
written; an unlisted slot has no value yet (R30, log 7). -/
abbrev Memory := List (Nat × Frame)

/-- The canonical form: slot indices strictly rising. -/
def Memory.wf (m : Memory) : Bool := decide (m.Pairwise fun a b => a.1 < b.1)

/-- One thing the outside presents to the block (log 3): a command word issued by an agent on a port
(30_encoding R69), or the next micro-step granted to a domain (70_reset R150). -/
inductive Input where
  | command (agent : Domain) (port : Port) (cw : CmdWord)
  | resume (d : Domain)
deriving DecidableEq, Repr

/-- Answers of the five peripheral calls still to come, in call order (20_memory R54, log 5). -/
structure EnvAnswers where
  cfgFilter : List Bool
  start : List Bool
  actNotify : List Bool
  addTx : List Bool
  getRx : List (Option RxMessage)
deriving DecidableEq, Repr

/-- A call made on the P-port, with its arguments (20_memory R54). -/
inductive PeriphCall where
  | cfgFilter (h : Handle) (flt : Filter)
  | start (h : Handle)
  | actNotify (h : Handle) (cats : List Notification)
  | addTx (h : Handle) (hdr : Header) (data : Payload)
  | getRx (h : Handle)
deriving DecidableEq, Repr

/-- A response word (30_encoding R68): RB, RF or RC. -/
inductive Response where
  | rb (b : BitVec 1)
  | rf (w : BitVec 112)
  | rc (n : BitVec 32)
deriving DecidableEq, Repr

/-- The whole state. The first group is the spec's construction parameters, the next three the spec's
state, `iPhase` to `iArg` the sequencer that only PARALLEL_DOMAINS = true uses, the rest the model's own
interface fields. -/
structure State where
  /-- 00_scope section 4 (log 1) -/
  params : Params
  /-- R14 -/
  slots : Memory
  /-- R15 -/
  head : Nat
  /-- R16 -/
  tail : Nat
  /-- R17 -/
  count : Nat
  /-- R22 -/
  drvState : DrvState
  /-- R23 -/
  handle : Option Handle
  /-- R26 a -/
  tPhase : TPhase
  /-- R26 b -/
  tFrame : Frame
  /-- R26 c -/
  tArg : Handle
  /-- R150 d (log 9) -/
  iPhase : IPhase
  /-- R150 d (log 9) -/
  iFrame : Frame
  /-- R150 d (log 9) -/
  iArg : Handle
  /-- what is presented next, first first (log 3) -/
  inputs : List Input
  /-- answers placed by the environment (log 5) -/
  env : EnvAnswers
  /-- how many free answers have been drawn (log 5) -/
  draws : Nat
  /-- response words returned so far, oldest first (log 6) -/
  responses : List (Port × Response)
  /-- P-port calls made so far, oldest first (log 6) -/
  calls : List PeriphCall
deriving DecidableEq, Repr

/-- What the rules say cannot happen. The block has no fault of its own (60_exceptions R110); no run
reaches one of these. -/
inductive Fault where
  /-- Raised by MemRead and MemWrite: a slot index outside `[0, C)` (20_memory R41). Safe (log 7). -/
  | slotOutOfRange (i : Nat)
  /-- Raised by MemRead: a slot never written since reset (93 U2). Safe (log 7). -/
  | unwrittenSlot (i : Nat)
  /-- Raised at W4: `count + 1` would exceed `C` (40_queue_ops R85 b). Safe (log 10). -/
  | countOverflow
  /-- Raised at P4: `count - 1` below 0 (40_queue_ops R85 c). Safe (log 10). -/
  | countUnderflow
deriving DecidableEq, Repr

/-- Situations the spec refuses (60_exceptions R118, `raise Refused`), and the host's own reason. -/
inductive Refusal where
  /-- An operation without a meaning. Raised by no arm of this model. Safe. -/
  | notModelled (mnemonic : String)
  /-- Raised when a command is presented: reserved opcode or non-zero MBZ bit (R66 a, b). Safe. -/
  | reservedEncoding (why : DecodeError)
  /-- Raised when a command is presented on a port, or at a level, it does not belong to (R66 c). Safe. -/
  | wrongPort
  /-- Raised when the agent of the other domain issues the operation (R64, R145). Safe (log 13). -/
  | wrongDomain
  /-- Raised when a task-domain command is presented while `t_phase` is not IDLE (R27, R118). Safe. -/
  | taskBusy
  /-- Raised by INIT at I1 while Ready (R90 e). Safe. -/
  | initWhileReady
  /-- Raised by RXIRQ for a received header with `dlc > 8` (R103). Safe. -/
  | rxDlcOutOfRange
deriving DecidableEq, Repr

/-- The state right after construction with parameters `p` (R30, R140; logs 5 to 9 for the fields the
spec gives no value). -/
def State.construct (p : Params) : State :=
  { params := p
    slots := []
    head := 0
    tail := 0
    count := 0
    drvState := .uninitialized
    handle := none
    tPhase := .idle
    tFrame := Frame.zero
    tArg := 0
    iPhase := .idle
    iFrame := Frame.zero
    iArg := 0
    inputs := []
    env := ⟨[], [], [], [], []⟩
    draws := 0
    responses := []
    calls := [] }

/-- The state right after reset: construction with this hardware's parameters (R141). -/
def State.reset : State := State.construct Config.params

end Sys2Proof.Machine
end

