-- ==== Sys2Proof/Machine/Flags.lean ====
section
/-! DEFINITION. The conditions operations compute (there is no stored flag, 10_state R19). -/

namespace Sys2Proof.Machine

/-- `EMPTY := (count == 0)` (R19), read by POP. -/
def queueEmpty (s : State) : Bool := s.count == 0

/-- `FULL := (count == C)` (R19), read by PUSH. -/
def queueFull (s : State) : Bool := s.count == s.params.capacity

/-- `drv_state == Ready`, read by SEND, RECV, INIT and RXIRQ (R21). -/
def driverReady (s : State) : Bool := s.drvState == .ready

/-- `handle == Some(src)`, the one operation on handles (R5, R100). -/
def handleMatches (src : Handle) (s : State) : Bool := s.handle == some src

/-- `valid_frame(f)` (R11). -/
def validFrame (f : Frame) : Bool :=
  decide (f.dlc.toNat ≤ Config.dlcMax) &&
    (if f.extended then decide (f.id.toNat ≤ Config.extMax) else decide (f.id.toNat ≤ Config.stdMax))

/-- A received length the handler has no meaning for (R103, U4). -/
def rxDlcBad (hdr : Header) : Bool := decide (Config.dlcMax < hdr.dlc.toNat)

end Sys2Proof.Machine
end

