-- ==== Sys2Proof/Machine/Operands.lean ====
section
/-! DEFINITION. Operand and result forms: response words (30_encoding R68), header translation in both
directions (42_interrupt_ops R103, 41_driver_ops R91), the records INIT passes (30_encoding R72). -/

namespace Sys2Proof.Machine

/-- RB: `rb[0] = 1` for true (R68). -/
def respBool (b : Bool) : Response := .rb (BitVec.ofBool b)

/-- The RF word: valid bit, three zero bits, the frame image; all zero for `None` (R68). -/
def rfWord (r : Option Frame) : BitVec 112 :=
  match r with
  | none => 0
  | some f => frameImage f ++ 1#4

/-- RF (R68). -/
def respFrame (r : Option Frame) : Response := .rf (rfWord r)

/-- RC: `zext_32(count)` (R68, R82). -/
def respCount (n : Nat) : Response := .rc (BitVec.ofNat 32 n)

/-- What an RF word says (R68). -/
def frameOfRf (w : BitVec 112) : Option Frame :=
  if w.getLsbD 0 then some (frameOfImage (w.extractLsb' 4 108)) else none

/-- The frame a response carries, if it is an RF word with `valid` set. -/
def Response.frame? (r : Response) : Option Frame :=
  match r with
  | .rb _ => none
  | .rf w => frameOfRf w
  | .rc _ => none

/-- `translate(hdr, data)` (R103): the identifier field the selector does not choose is ignored. -/
def translateRx (m : RxMessage) : Frame :=
  { id := if m.hdr.ide then m.hdr.extId.setWidth 32 else m.hdr.stdId.setWidth 32
    extended := m.hdr.ide
    dlc := m.hdr.dlc.setWidth 8
    data := m.data }

/-- The transmit header SEND builds at T2 (R91): `id[10:0]` or `id[28:0]`, the other field 0, `dlc[3:0]`. -/
def txHeader (f : Frame) : Header :=
  { ide := f.extended
    stdId := if f.extended then 0 else f.id.extractLsb' 0 11
    extId := if f.extended then f.id.extractLsb' 0 29 else 0
    dlc := f.dlc.extractLsb' 0 4 }

/-- The accept-all filter: zero mask, identifier 0 (R72, R90). -/
def acceptAll : Filter := ⟨0, 0⟩

/-- All three notification categories (R72, R90). -/
def allNotifications : List Notification := [.rxPending, .busError, .busOff]

end Sys2Proof.Machine
end

