-- ==== Sys2Proof/Machine/Ops.lean ====
section
/-! DEFINITION. The named operations the meanings share: slot memory (20_memory R42), index and count
arithmetic (40_queue_ops R85), responses (30_encoding R68), the five peripheral calls (20_memory R54),
and the micro-steps of PUSH and POP (40_queue_ops R80, R81), which RXIRQ and RECV run too.
There is no exception to take and none to return from: delivering an event saves and changes nothing,
and the interrupted operation resumes at `t_phase` (60_exceptions R110, R124, R125; log 17). -/

namespace Sys2Proof.Machine

/-- Run `k` on the value of a step that went on; a fault or a refusal ends it. -/
def andThen {α β : Type} (r : Host.Outcome α Fault Refusal)
    (k : α → Host.Outcome β Fault Refusal) : Host.Outcome β Fault Refusal :=
  match r with
  | .next a => k a
  | .fault e => .fault e
  | .refused e => .refused e

/-- The Frame slot `i` holds, if the slot has been written. -/
def Memory.read (m : Memory) (i : Nat) : Option Frame :=
  match m with
  | [] => none
  | c :: rest => if c.1 = i then some c.2 else Memory.read rest i

/-- Replace slot `i` by `f`, keeping the indices strictly rising. -/
def Memory.write (m : Memory) (i : Nat) (f : Frame) : Memory :=
  match m with
  | [] => [(i, f)]
  | c :: rest =>
    if i < c.1 then (i, f) :: c :: rest
    else if c.1 = i then (i, f) :: rest
    else c :: Memory.write rest i f

/-- `MemRead(i, 1)` (R42). -/
def memRead (i : Nat) (s : State) : Host.Outcome Frame Fault Refusal :=
  if i < s.params.capacity then
    match s.slots.read i with
    | some f => .next f
    | none => .fault (.unwrittenSlot i)
  else .fault (.slotOutOfRange i)

/-- `MemWrite(i, 1, f)` (R42). -/
def memWrite (i : Nat) (f : Frame) (s : State) : Host.Outcome State Fault Refusal :=
  if i < s.params.capacity then .next { s with slots := s.slots.write i f }
  else .fault (.slotOutOfRange i)

/-- `(x + 1) mod C` (R85 a). -/
def nextIndex (c x : Nat) : Nat := (x + 1) % c

/-- `head <- (head + 1) mod C` (R80 W3). -/
def advanceHead (s : State) : State := { s with head := nextIndex s.params.capacity s.head }

/-- `tail <- (tail + 1) mod C` (R81 P3). -/
def advanceTail (s : State) : State := { s with tail := nextIndex s.params.capacity s.tail }

/-- `atomic { count <- count + 1 }` (R80 W4, R52), for a result that fits (R85 b). -/
def countUp (s : State) : Host.Outcome State Fault Refusal :=
  if s.count < s.params.capacity then .next { s with count := s.count + 1 } else .fault .countOverflow

/-- `atomic { count <- count - 1 }` (R81 P4, R52), for a result that fits (R85 c). -/
def countDown (s : State) : Host.Outcome State Fault Refusal :=
  if 1 ≤ s.count then .next { s with count := s.count - 1 } else .fault .countUnderflow

/-- A response word leaves by a port (R68, R69). -/
def respond (out : Port) (r : Response) (s : State) : State :=
  { s with responses := s.responses ++ [(out, r)] }

/-- The next answer of a call: the first one placed, else a free value (R54, D28, log 5). The last
component is the draw counter after it. -/
def takeAnswer {α : Type} (placed : List α) (free : Nat → α) (draws : Nat) : α × List α × Nat :=
  match placed with
  | a :: rest => (a, rest, draws)
  | [] => (free draws, [], draws + 1)

/-- `Env.CfgFilter(h, flt)` (R54). -/
def callCfgFilter (h : Handle) (flt : Filter) (s : State) : Bool × State :=
  let a := takeAnswer s.env.cfgFilter Config.freeAck s.draws
  (a.1, { s with
    env := { s.env with cfgFilter := a.2.1 }
    draws := a.2.2
    calls := s.calls ++ [.cfgFilter h flt] })

/-- `Env.Start(h)` (R54). -/
def callStart (h : Handle) (s : State) : Bool × State :=
  let a := takeAnswer s.env.start Config.freeAck s.draws
  (a.1, { s with
    env := { s.env with start := a.2.1 }
    draws := a.2.2
    calls := s.calls ++ [.start h] })

/-- `Env.ActNotify(h, cats)` (R54). -/
def callActNotify (h : Handle) (cats : List Notification) (s : State) : Bool × State :=
  let a := takeAnswer s.env.actNotify Config.freeAck s.draws
  (a.1, { s with
    env := { s.env with actNotify := a.2.1 }
    draws := a.2.2
    calls := s.calls ++ [.actNotify h cats] })

/-- `Env.AddTx(h, hdr, data)` (R54). -/
def callAddTx (h : Handle) (hdr : Header) (data : Payload) (s : State) : Bool × State :=
  let a := takeAnswer s.env.addTx Config.freeAck s.draws
  (a.1, { s with
    env := { s.env with addTx := a.2.1 }
    draws := a.2.2
    calls := s.calls ++ [.addTx h hdr data] })

/-- `Env.GetRx(h)` (R54). -/
def callGetRx (h : Handle) (s : State) : Option RxMessage × State :=
  let a := takeAnswer s.env.getRx Config.freeRx s.draws
  (a.1, { s with
    env := { s.env with getRx := a.2.1 }
    draws := a.2.2
    calls := s.calls ++ [.getRx h] })

/-- PUSH returns its boolean: on the W-port, or to nobody inside RXIRQ (R80, R100). -/
def pushReturn (out : Option Port) (ok : Bool) (s : State) : State :=
  match out with
  | some port => respond port (respBool ok) s
  | none => s

/-- PUSH with no task-domain step inside it, W1 to W4 at once (R80, R150 b). -/
def pushWhole (out : Option Port) (f : Frame) (s : State) : Host.Outcome State Fault Refusal :=
  if queueFull s then .next (pushReturn out false s)
  else
    andThen (memWrite s.head f s) fun s2 =>
      andThen (countUp (advanceHead s2)) fun s4 => .next (pushReturn out true s4)

/-- W1 alone, with PARALLEL_DOMAINS = true (R80, R150 d). -/
def pushW1 (out : Option Port) (f : Frame) (s : State) : State :=
  if queueFull s then pushReturn out false { s with iPhase := .idle }
  else { s with iFrame := f, iPhase := .w2 }

/-- The next micro-step of the PUSH in progress, with PARALLEL_DOMAINS = true (R80, R150 d). -/
def pushResume (out : Option Port) (s : State) : Host.Outcome State Fault Refusal :=
  match s.iPhase with
  | .idle => .next s
  | .w1 => .next (pushW1 out s.iFrame s)
  | .w2 => andThen (memWrite s.head s.iFrame s) fun s2 => .next { s2 with iPhase := .w3 }
  | .w3 => .next { advanceHead s with iPhase := .w4 }
  | .w4 => andThen (countUp s) fun s4 => .next (pushReturn out true { s4 with iPhase := .idle })

/-- POP's P1 (R81): `None` at once, or on to P2. -/
def popP1 (out : Port) (s : State) : State :=
  if queueEmpty s then respond out (respFrame none) s else { s with tPhase := .p2 }

/-- The next micro-step of the POP in progress (R81); at a phase of another operation the task domain is
busy (R27). -/
def popResume (out : Port) (s : State) : Host.Outcome State Fault Refusal :=
  match s.tPhase with
  | .p2 => andThen (memRead s.tail s) fun f => .next { s with tFrame := f, tPhase := .p3 }
  | .p3 => .next { advanceTail s with tPhase := .p4 }
  | .p4 => andThen (countDown s) fun s4 =>
      .next (respond out (respFrame (some s4.tFrame)) { s4 with tPhase := .idle })
  | .idle => .refused .taskBusy
  | .i2 => .refused .taskBusy
  | .i3 => .refused .taskBusy
  | .t2 => .refused .taskBusy

end Sys2Proof.Machine
end

