-- ==== Sys2Proof/Machine/Driver.lean ====
section
/-! DEFINITION. The driver's task-domain operations INIT, SEND, RECV (41_driver_ops). -/

namespace Sys2Proof.Machine

/-- INIT's I1 (R90): refused while Ready; latch the handle, configure the accept-all filter. -/
def initI1 (h : Handle) (s : State) : Host.Outcome State Fault Refusal :=
  if driverReady s then .refused .initWhileReady
  else
    let r := callCfgFilter h acceptAll { s with tArg := h }
    .next (if r.1 then { r.2 with tPhase := .i2 } else respond .t (respBool false) r.2)

/-- INIT's I2 (R90): start the peripheral. -/
def initI2 (s : State) : State :=
  let r := callStart s.tArg s
  if r.1 then { r.2 with tPhase := .i3 } else respond .t (respBool false) { r.2 with tPhase := .idle }

/-- INIT's I3 (R90), atomic: enable the notifications and, on success, commit `handle` and `drv_state`. -/
def initI3 (s : State) : State :=
  let r := callActNotify s.tArg allNotifications s
  let s' := if r.1 then { r.2 with handle := some s.tArg, drvState := .ready } else r.2
  respond .t (respBool r.1) { s' with tPhase := .idle }

/-- INIT `h` (R90): the next micro-step of I1, I2, I3. -/
def execInit (h : Handle) (s : State) : Host.Outcome State Fault Refusal :=
  match s.tPhase with
  | .idle => initI1 h s
  | .i2 => .next (initI2 s)
  | .i3 => .next (initI3 s)
  | .p2 => .refused .taskBusy
  | .p3 => .refused .taskBusy
  | .p4 => .refused .taskBusy
  | .t2 => .refused .taskBusy

/-- SEND's T1 (R91): not ready or not valid answers false without touching the peripheral. -/
def sendT1 (f : Frame) (s : State) : State :=
  if driverReady s && validFrame f then { s with tFrame := f, tPhase := .t2 }
  else respond .t (respBool false) s

/-- SEND's T2 (R91): submit the header and all 8 payload bytes. An absent handle answers false rather
than being dereferenced (R23; no run gets there, log 11). -/
def sendT2 (s : State) : State :=
  match s.handle with
  | some h =>
    let r := callAddTx h (txHeader s.tFrame) s.tFrame.data s
    respond .t (respBool r.1) { r.2 with tPhase := .idle }
  | none => respond .t (respBool false) { s with tPhase := .idle }

/-- SEND `f` (R91): the next micro-step of T1, T2. -/
def execSend (f : Frame) (s : State) : Host.Outcome State Fault Refusal :=
  match s.tPhase with
  | .idle => .next (sendT1 f s)
  | .t2 => .next (sendT2 s)
  | .p2 => .refused .taskBusy
  | .p3 => .refused .taskBusy
  | .p4 => .refused .taskBusy
  | .i2 => .refused .taskBusy
  | .i3 => .refused .taskBusy

/-- RECV (R92): the ready test and POP's P1 in one micro-step, then POP's micro-steps; answers on the
T-port. -/
def execRecv (s : State) : Host.Outcome State Fault Refusal :=
  if s.tPhase = .idle then
    .next (if driverReady s then popP1 .t s else respond .t (respFrame none) s)
  else popResume .t s

end Sys2Proof.Machine
end

