-- ==== Sys2Proof/Machine/Interrupt.lean ====
section
/-! DEFINITION. The interrupt-domain entries RXIRQ, ERRIRQ, BOFFIRQ (42_interrupt_ops). -/

namespace Sys2Proof.Machine

/-- What RXIRQ does with the answer of `Env.GetRx` (R100): nothing for a fetch failure; refused for a
length above 8 (R103); else PUSH the translated frame, its result discarded (with
PARALLEL_DOMAINS = true PUSH's W1 is a step of its own, R150 d, log 9). -/
def rxDeliver (src : Handle) (r : Option RxMessage) (s : State) : Host.Outcome State Fault Refusal :=
  match r with
  | none => .next s
  | some m =>
    if rxDlcBad m.hdr then .refused .rxDlcOutOfRange
    else if s.params.parallelDomains then
      .next { s with iFrame := translateRx m, iArg := src, iPhase := .w1 }
    else pushWhole none (translateRx m) s

/-- RXIRQ `src` from an idle interrupt domain (R100 X1): the ready and handle tests, exactly one fetch. -/
def rxFetch (src : Handle) (s : State) : Host.Outcome State Fault Refusal :=
  if driverReady s && handleMatches src s then
    let r := callGetRx src s
    rxDeliver src r.1 r.2
  else .next s

/-- RXIRQ `src` (R100). -/
def execRxirq (src : Handle) (s : State) : Host.Outcome State Fault Refusal :=
  match s.iPhase with
  | .idle => rxFetch src s
  | .w1 => pushResume none s
  | .w2 => pushResume none s
  | .w3 => pushResume none s
  | .w4 => pushResume none s

/-- ERRIRQ `src` (R101): no state is read or written, no peripheral call is made. -/
def execErrirq (_src : Handle) (s : State) : Host.Outcome State Fault Refusal := .next s

/-- BOFFIRQ `src` (R102): no state is read or written, no peripheral call is made. -/
def execBoffirq (_src : Handle) (s : State) : Host.Outcome State Fault Refusal := .next s

end Sys2Proof.Machine
end

