-- ==== Sys2Proof/Machine/Queue.lean ====
section
/-! DEFINITION. The queue operations PUSH, POP, SIZE (40_queue_ops). A meaning performs the next
micro-step of its operation: the first one when its domain is idle, else the one the sequencer names
(10_state R27, log 12). -/

namespace Sys2Proof.Machine

/-- PUSH `f` (R80): one atomic step as the task domain sees it, or W1 first with PARALLEL_DOMAINS = true. -/
def execPush (f : Frame) (s : State) : Host.Outcome State Fault Refusal :=
  match s.iPhase with
  | .idle =>
    if s.params.parallelDomains then .next (pushW1 (some .w) f s) else pushWhole (some .w) f s
  | .w1 => pushResume (some .w) s
  | .w2 => pushResume (some .w) s
  | .w3 => pushResume (some .w) s
  | .w4 => pushResume (some .w) s

/-- POP (R81): P1, or the micro-step `t_phase` names. -/
def execPop (s : State) : Host.Outcome State Fault Refusal :=
  if s.tPhase = .idle then .next (popP1 .r s) else popResume .r s

/-- SIZE (R82): its one micro-step S1; no state is written. -/
def execSize (s : State) : Host.Outcome State Fault Refusal :=
  if s.tPhase = .idle then .next (respond .r (respCount s.count) s) else .refused .taskBusy

end Sys2Proof.Machine
end

