-- ==== Sys2Proof/Machine/Dispatch.lean ====
section
/-! DEFINITION. The meaning of every operation, one arm per constructor. -/

namespace Sys2Proof.Machine

def exec (i : Instr) (s : State) : Host.Outcome State Fault Refusal :=
  match i with
  | .pop => Sys2Proof.Machine.execPop s
  | .size => Sys2Proof.Machine.execSize s
  | .recv => Sys2Proof.Machine.execRecv s
  | .init h => Sys2Proof.Machine.execInit h s
  | .send f => Sys2Proof.Machine.execSend f s
  | .push f => Sys2Proof.Machine.execPush f s
  | .rxirq src => Sys2Proof.Machine.execRxirq src s
  | .errirq src => Sys2Proof.Machine.execErrirq src s
  | .boffirq src => Sys2Proof.Machine.execBoffirq src s

end Sys2Proof.Machine
end

