-- ==== Sys2Proof/Machine/Ports.lean ====
section
/-! DEFINITION. Presenting a command on a port (30_encoding R66, R69, 10_state R27, 60_exceptions R118,
R125), the operations in progress, and the choice of the next micro-step (70_reset R150). -/

namespace Sys2Proof.Machine

/-- The operation a presented command stands for, or why the spec refuses it: reserved encoding (R66 a,
b), wrong port or level (R66 c), issued by the other domain's agent (R64, R145), task domain busy (R27). -/
def accept (agent : Domain) (port : Port) (cw : CmdWord) (s : State) : Except Refusal Instr :=
  match decode s.params.handleW cw with
  | .error e => .error (.reservedEncoding e)
  | .ok i =>
    if i.port ≠ port ∨ i.level ≠ s.params.level then .error .wrongPort
    else if i.domain ≠ agent then .error .wrongDomain
    else if i.domain = .task ∧ s.tPhase ≠ .idle then .error .taskBusy
    else .ok i

/-- The task-domain operation in progress (R26): `t_phase` and the level tell which, the working
registers hold its operand. -/
def taskInProgress (s : State) : Option Instr :=
  match s.tPhase with
  | .idle => none
  | .p2 | .p3 | .p4 => some (if s.params.level = .queue then .pop else .recv)
  | .i2 | .i3 => some (.init s.tArg)
  | .t2 => some (.send s.tFrame)

/-- The interrupt-domain operation in progress, with PARALLEL_DOMAINS = true (R150 d). -/
def interruptInProgress (s : State) : Option Instr :=
  if s.iPhase = .idle then none
  else some (if s.params.level = .queue then .push s.iFrame else .rxirq s.iArg)

/-- What the next step does: a micro-step of an operation, a refusal, or nothing. -/
inductive Move where
  | run (i : Instr) (inputs : List Input)
  | refuse (r : Refusal)
  | rest (inputs : List Input)
deriving DecidableEq, Repr

/-- Continue the operation in progress of one domain, if there is one. -/
def resumeMove (op : Option Instr) (inputs : List Input) : Move :=
  match op with
  | some i => .run i inputs
  | none => .rest inputs

/-- A presented command: refused, or run. An interrupt-domain operation presented while one is in
progress waits where it stands, and the one in progress takes its next micro-step (R125, log 14). -/
def commandMove (agent : Domain) (port : Port) (cw : CmdWord) (rest : List Input) (s : State) : Move :=
  match accept agent port cw s with
  | .error r => .refuse r
  | .ok i =>
    match i.domain, interruptInProgress s with
    | .interrupt, some j => .run j s.inputs
    | _, _ => .run i rest

/-- The next step (R150). With nothing presented, an operation in progress goes on, the interrupt
domain's first (R123 a, R155), and a quiescent block does nothing (log 4). -/
def nextMove (s : State) : Move :=
  match s.inputs with
  | .command agent port cw :: rest => commandMove agent port cw rest s
  | .resume .task :: rest => resumeMove (taskInProgress s) rest
  | .resume .interrupt :: rest => resumeMove (interruptInProgress s) rest
  | [] =>
    match interruptInProgress s with
    | some j => .run j []
    | none => resumeMove (taskInProgress s) []

/-- Place a command word so that the next step runs it from an idle domain at its own level, on its own
port, issued by its own agent; a reserved encoding is placed on the T-port (log 3). -/
def present (cw : CmdWord) (s : State) : State :=
  match decode s.params.handleW cw with
  | .ok i =>
    { s with
      params := { s.params with level := i.level }
      tPhase := if i.domain = .task then .idle else s.tPhase
      iPhase := if i.domain = .interrupt then .idle else s.iPhase
      inputs := .command i.domain i.port cw :: s.inputs }
  | .error _ => { s with inputs := .command .task .t cw :: s.inputs }

end Sys2Proof.Machine
end

