-- ==== Sys2Proof/Machine/Step.lean ====
section
/-! DEFINITION. One step: the micro-step `nextMove` chooses (70_reset R150). -/

namespace Sys2Proof.Machine

/-- One micro-step of one domain. -/
def step (s : State) : Host.Outcome State Fault Refusal :=
  match nextMove s with
  | .run i inputs => exec i { s with inputs := inputs }
  | .refuse r => .refused r
  | .rest inputs => .next { s with inputs := inputs }

/-- `s` with the table word `w` presented so that the very next step runs it (log 3). -/
def State.withFetchWord (s : State) (nbits w : Nat) : State :=
  present (BitVec.ofNat 112 (w % 2 ^ nbits)) s

end Sys2Proof.Machine
end

