-- ==== Sys2Proof/Machine/Pseudo.lean ====
section
/-! DEFINITION. The textual names of the operations (30_encoding R70) and the reader's pseudo-operations
(30_encoding R71) as the frames, answers and inputs they expand to. None is hardware. -/

namespace Sys2Proof.Machine

/-- The mnemonic column of R63, as R70 writes it. -/
def mnemonic (i : Instr) : String :=
  match i with
  | .pop => "POP"
  | .size => "SIZE"
  | .recv => "RECV"
  | .init _ => "INIT"
  | .send _ => "SEND"
  | .push _ => "PUSH"
  | .rxirq _ => "RXIRQ"
  | .errirq _ => "ERRIRQ"
  | .boffirq _ => "BOFFIRQ"

/-- `[b0 .. b(n-1) 00 ..]`: unlisted bytes are zero (R71). -/
def payloadOf (bytes : List Byte) : Payload :=
  ⟨bytes.getD 0 0, bytes.getD 1 0, bytes.getD 2 0, bytes.getD 3 0,
   bytes.getD 4 0, bytes.getD 5 0, bytes.getD 6 0, bytes.getD 7 0⟩

/-- `STD(id, b0, ..., b(n-1))` (R71). -/
def stdFrame (id : BitVec 32) (bytes : List Byte) : Frame :=
  ⟨id, false, BitVec.ofNat 8 bytes.length, payloadOf bytes⟩

/-- `EXT(id, b0, ..., b(n-1))` (R71). -/
def extFrame (id : BitVec 32) (bytes : List Byte) : Frame :=
  ⟨id, true, BitVec.ofNat 8 bytes.length, payloadOf bytes⟩

/-- The `GetRx` answer of `RXSTD h, id, b0, ...` (R71). -/
def rxStd (id : BitVec 11) (bytes : List Byte) : RxMessage :=
  ⟨⟨false, id, 0, BitVec.ofNat 4 bytes.length⟩, payloadOf bytes⟩

/-- The `GetRx` answer of `RXEXT h, id, b0, ...` (R71). -/
def rxExt (id : BitVec 29) (bytes : List Byte) : RxMessage :=
  ⟨⟨true, 0, id, BitVec.ofNat 4 bytes.length⟩, payloadOf bytes⟩

/-- One operation presented by its own agent on its own port (R63, R69). -/
def issue (i : Instr) : Input := .command i.domain i.port (encode i)

/-- `POP` written without a suffix: `POP.P1` to `POP.P4` consecutively (R70). -/
def popLine : List Input := [issue .pop, .resume .task, .resume .task, .resume .task]

/-- `RECV` written without a suffix (R70). -/
def recvLine : List Input := [issue .recv, .resume .task, .resume .task, .resume .task]

/-- `INIT h` written without a suffix (R70). -/
def initLine (h : Handle) : List Input := [issue (.init h), .resume .task, .resume .task]

/-- `SEND f` written without a suffix (R70). -/
def sendLine (f : Frame) : List Input := [issue (.send f), .resume .task]

/-- `INITOK h` (R71): all three answers of INIT are `ok`. -/
def initOk (h : Handle) (s : State) : State :=
  { s with
    inputs := initLine h ++ s.inputs
    env := { s.env with
      cfgFilter := true :: s.env.cfgFilter
      start := true :: s.env.start
      actNotify := true :: s.env.actNotify } }

end Sys2Proof.Machine
end

