-- ==== Sys2Proof/Safety.lean ====
section
/-! DEFINITION. What a good state of the block is (10_state R18, R24, R26), the queue's abstract content
(10_state R32, 40_queue_ops R84), and what a run has delivered and accepted (20_memory R55). -/

namespace Sys2Proof.Machine

/-- Quiescent: no operation of either domain is in progress (70_reset R155). -/
abbrev Quiescent (s : State) : Prop := s.tPhase = .idle ∧ s.iPhase = .idle

/-- 1 between P3 and P4 of a POP: `tail` has advanced, `count` has not (R18). -/
def popLag (s : State) : Nat := if s.tPhase = .p4 then 1 else 0

/-- 1 between W3 and W4 of a PUSH: `head` has advanced, `count` has not (R18, PARALLEL_DOMAINS = true). -/
def pushLag (s : State) : Nat := if s.iPhase = .w4 then 1 else 0

/-- Index of the slot before `x`, modulo `c`. -/
def prevIndex (c x : Nat) : Nat := (x + c - 1) % c

/-- Index of the oldest frame that `count` still counts: between P3 and P4 it is the slot behind `tail`. -/
def oldest (s : State) : Nat :=
  if s.tPhase = .p4 then prevIndex s.params.capacity s.tail else s.tail

/-- The abstract content (R32), linearised as R84 says (a POP takes effect at P4, a PUSH at W4): the
`count` slots from `oldest` on, oldest frame first. At a quiescent point it is R32's list. -/
def contents (s : State) : List (Option Frame) :=
  (List.range s.count).map fun k => s.slots.read ((oldest s + k) % s.params.capacity)

/-- Slots: canonical, inside `[0, C)`; registers in range (R15 to R18); `head` is `count` frames after
`tail`, up to the two transients (R18); every slot in between has been written. -/
abbrev QueueInv (s : State) : Prop :=
  Memory.wf s.slots = true ∧
  (∀ c ∈ s.slots, c.1 < s.params.capacity) ∧
  s.head < s.params.capacity ∧
  s.tail < s.params.capacity ∧
  s.count ≤ s.params.capacity ∧
  (s.head + popLag s) % s.params.capacity = (s.tail + s.count + pushLag s) % s.params.capacity ∧
  (∀ k < s.count + pushLag s - popLag s,
    (s.slots.read ((s.tail + k) % s.params.capacity)).isSome = true)

/-- A POP in progress has something to take, and from P3 on `t_frame` is the slot it read; a PUSH in
progress past W1 has room, and from W3 on its frame stands in the slot (R80, R81, R84). -/
abbrev PhaseInv (s : State) : Prop :=
  (s.tPhase = .p2 ∨ s.tPhase = .p3 ∨ s.tPhase = .p4 → 1 ≤ s.count) ∧
  (s.tPhase = .p3 → s.slots.read s.tail = some s.tFrame) ∧
  (s.tPhase = .p4 → s.slots.read (prevIndex s.params.capacity s.tail) = some s.tFrame) ∧
  (s.iPhase = .w2 ∨ s.iPhase = .w3 ∨ s.iPhase = .w4 → s.count < s.params.capacity) ∧
  (s.iPhase = .w3 → s.slots.read s.head = some s.iFrame) ∧
  (s.iPhase = .w4 → s.slots.read (prevIndex s.params.capacity s.head) = some s.iFrame) ∧
  (s.params.parallelDomains = false → s.iPhase = .idle)

/-- `handle` is present exactly when Ready (R24 a) and fits `HANDLE_W`; an INIT in progress is in
Uninitialized, a SEND past T1 is in Ready with a valid frame (R90, R91). -/
abbrev DriverInv (s : State) : Prop :=
  (s.handle.isSome = true ↔ s.drvState = .ready) ∧
  s.handle.all (handleFits s.params.handleW) = true ∧
  (s.tPhase = .i2 ∨ s.tPhase = .i3 →
    s.drvState = .uninitialized ∧ handleFits s.params.handleW s.tArg = true) ∧
  (s.tPhase = .t2 → s.drvState = .ready ∧ validFrame s.tFrame = true)

/-- What the level rules out (R6, R24 b, R41, R92 c): the queue alone never touches the driver; the
driver's queue is untouched before Ready and holds only valid frames. -/
abbrev LevelInv (s : State) : Prop :=
  (s.params.level = .queue →
    s.drvState = .uninitialized ∧ s.tPhase ≠ .i2 ∧ s.tPhase ≠ .i3 ∧ s.tPhase ≠ .t2) ∧
  (s.params.level = .driver → s.drvState = .uninitialized →
    s.count = 0 ∧ s.head = s.tail ∧ s.slots = [] ∧ s.iPhase = .idle) ∧
  (s.params.level = .driver →
    (∀ c ∈ s.slots, validFrame c.2 = true) ∧
    (s.iPhase ≠ .idle → validFrame s.iFrame = true ∧ s.handle = some s.iArg))

/-- The invariant of the block. -/
abbrev Inv (s : State) : Prop :=
  s.params.wf = true ∧ QueueInv s ∧ PhaseInv s ∧ DriverInv s ∧ LevelInv s

/-- The same block but for where the queue stands in its slots: everything else equal, and the same content
(R32: `head` and `tail` individually are not observable). -/
abbrev SameView (s t : State) : Prop :=
  t = { s with slots := t.slots, head := t.head, tail := t.tail } ∧ contents s = contents t

/-- `k` steps of the block, stopping at the first fault or refusal (`Host.Core.run` of the block, see
`core_run_eq_runSteps`). -/
def runSteps (k : Nat) (s : State) : Host.Outcome State Fault Refusal :=
  match k with
  | 0 => .next s
  | k + 1 => andThen (step s) fun t => runSteps k t

/-- Frames in the valid RF responses returned between two states of a run. -/
def framesReturned (s s' : State) : List Frame :=
  (s'.responses.drop s.responses.length).filterMap fun r => r.2.frame?

/-- The content a step has added at the end of the queue, if it has (R84: `count` rises at W4). -/
def contentsAdded (s s' : State) : List (Option Frame) :=
  if s.count < s'.count then (contents s').drop s.count else []

/-- Frames returned by POP or RECV in the first `k` steps, in order. -/
def delivered (k : Nat) (s : State) : List Frame :=
  match k with
  | 0 => []
  | k + 1 =>
    match step s with
    | .next s' => framesReturned s s' ++ delivered k s'
    | .fault _ => []
    | .refused _ => []

/-- Frames that entered the queue in the first `k` steps, in order. -/
def accepted (k : Nat) (s : State) : List (Option Frame) :=
  match k with
  | 0 => []
  | k + 1 =>
    match step s with
    | .next s' => contentsAdded s s' ++ accepted k s'
    | .fault _ => []
    | .refused _ => []

end Sys2Proof.Machine
end

