-- ==== Sys2Proof/Certificates/Slice0/Obligations.lean ====
section
/-! DEFINITION. The statements for the provers. `takeAnswer placed free draws` is the environment's answer
(an arbitrary placed one, or a free value, log 5); the statements hold whatever it is. -/

open Sys2Proof Sys2Proof.Machine

/-! ### Encoding -/

/-- R61, R62, R63: decoding an encoded operation gives it back, every operand bit at every value. -/
def Obligations.DecodeOfEncodeIsIdentity : Prop :=
  ∀ (hw : Nat) (i : Instr), i.wellFormed hw = true → decode hw (encode i) = .ok i

/-- R66: no word executes as another operation: a word that decodes is the encoding of what it decodes
to, and what it decodes to fits the handle width. -/
def Obligations.EncodeOfDecodeIsIdentity : Prop :=
  ∀ (hw : Nat) (cw : CmdWord) (i : Instr), decode hw cw = .ok i →
    encode i = cw ∧ i.wellFormed hw = true

/-- R63's match and mask table (HANDLE_W = 32), copied from the spec: a word decodes to a row's operation
exactly when `cw & mask == match`. -/
def Obligations.DecoderMatchesTheOpcodeTable : Prop :=
  ∀ row ∈ ([("POP", 0x1, 0xFFFFFFFFFFFFFFFFFFFFFFFFFFFF),
            ("SIZE", 0x2, 0xFFFFFFFFFFFFFFFFFFFFFFFFFFFF),
            ("RECV", 0x3, 0xFFFFFFFFFFFFFFFFFFFFFFFFFFFF),
            ("INIT", 0x4, 0xFFFFFFFFFFFFFFFFFFF00000000F),
            ("SEND", 0x5, 0x000000000000000000E00000000F),
            ("PUSH", 0x8, 0x000000000000000000E00000000F),
            ("RXIRQ", 0x9, 0xFFFFFFFFFFFFFFFFFFF00000000F),
            ("ERRIRQ", 0xA, 0xFFFFFFFFFFFFFFFFFFF00000000F),
            ("BOFFIRQ", 0xB, 0xFFFFFFFFFFFFFFFFFFF00000000F)] : List (String × CmdWord × CmdWord)),
    ∀ cw : CmdWord,
      (∃ i, decode 32 cw = .ok i ∧ mnemonic i = row.1) ↔ cw &&& row.2.2 = row.2.1

/-- Words of 95_test_vectors E1 to E20, written out by the spec. -/
def Obligations.SpecVectorsDecode : Prop :=
  decode 32 0x0000000000000000000000000001 = .ok .pop ∧
  decode 32 0x0000000000000000000000000002 = .ok .size ∧
  decode 32 0x0000000000000000000000000003 = .ok .recv ∧
  decode 32 0x0000000000000000000400064004 = .ok (.init 0x40006400) ∧
  decode 32 0x0000000000000000000400064009 = .ok (.rxirq 0x40006400) ∧
  decode 32 0x0807060504030201080000007FF5 =
    .ok (.send (stdFrame 0x7FF [1, 2, 3, 4, 5, 6, 7, 8])) ∧
  decode 32 0x080706050403020108118DAF1108 =
    .ok (.push (extFrame 0x18DAF110 [1, 2, 3, 4, 5, 6, 7, 8])) ∧
  decode 32 0x0000000000000000000000000007 = .error (.reservedOpcode 7) ∧
  decode 32 0x0000000000000000000000000011 = .error .nonZeroMbz ∧
  decode 32 0x0000000000000000002000001238 = .error .nonZeroMbz ∧
  decode 32 0x0000000000000000001400064004 = .error .nonZeroMbz

/-- R62: the frame image puts every field where the rule says, and is a bijection between Frames and
images with bits 35:33 zero. -/
def Obligations.FrameImageIsABijection : Prop :=
  (∀ f : Frame,
    (frameImage f).extractLsb' 0 32 = f.id ∧
    (frameImage f).getLsbD 32 = f.extended ∧
    (frameImage f).extractLsb' 33 3 = 0 ∧
    (frameImage f).extractLsb' 36 8 = f.dlc ∧
    (frameImage f).extractLsb' 44 8 = f.data.b0 ∧
    (frameImage f).extractLsb' 52 8 = f.data.b1 ∧
    (frameImage f).extractLsb' 60 8 = f.data.b2 ∧
    (frameImage f).extractLsb' 68 8 = f.data.b3 ∧
    (frameImage f).extractLsb' 76 8 = f.data.b4 ∧
    (frameImage f).extractLsb' 84 8 = f.data.b5 ∧
    (frameImage f).extractLsb' 92 8 = f.data.b6 ∧
    (frameImage f).extractLsb' 100 8 = f.data.b7 ∧
    frameOfImage (frameImage f) = f) ∧
  ∀ fi : BitVec 108, fi.extractLsb' 33 3 = 0 → frameImage (frameOfImage fi) = fi

/-- R68: the response words. A valid RF word is the PUSH word of the same frame with low nibble 1; it is
read back as the frame; `None` is all zero. RB is one bit, RC the count zero-extended. -/
def Obligations.ResponseWordsCarryTheirResult : Prop :=
  (∀ f : Frame,
    (rfWord (some f)).extractLsb' 0 4 = 1 ∧
    (rfWord (some f)).extractLsb' 4 108 = (encode (.push f)).extractLsb' 4 108 ∧
    frameOfRf (rfWord (some f)) = some f) ∧
  rfWord none = 0 ∧ frameOfRf 0 = none ∧
  respBool true = .rb 1 ∧ respBool false = .rb 0 ∧
  ∀ n < 2 ^ 32, ∃ w, respCount n = .rc w ∧ w.toNat = n

/-- R64, R145: the domain bit `cw[3]` names the agent, and a command the other agent issues is refused. -/
def Obligations.DomainBitNamesTheOnlyAgent : Prop :=
  ∀ (s : State) (agent : Domain) (port : Port) (cw : CmdWord) (rest : List Input) (i : Instr),
    s.inputs = .command agent port cw :: rest → decode s.params.handleW cw = .ok i →
    (i.domain = .interrupt ↔ cw.getLsbD 3 = true) ∧
    (agent ≠ i.domain → step s = .refused .wrongDomain ∨ step s = .refused .wrongPort)

/-- R66: a reserved opcode, a non-zero MBZ bit, and an opcode on a wrong port or at the other level are
refused, whoever presents them and in every state. -/
def Obligations.ReservedEncodingsAreRefused : Prop :=
  ∀ (s : State) (agent : Domain) (port : Port) (cw : CmdWord) (rest : List Input),
    s.inputs = .command agent port cw :: rest →
    ((opcodeOf cw ∈ ([0x0, 0x6, 0x7, 0xC, 0xD, 0xE, 0xF] : List (BitVec 4)) →
        step s = .refused (.reservedEncoding (.reservedOpcode (opcodeOf cw)))) ∧
      (opcodeOf cw ∈ ([0x1, 0x2, 0x3] : List (BitVec 4)) → operandOf cw ≠ 0 →
        step s = .refused (.reservedEncoding .nonZeroMbz)) ∧
      (opcodeOf cw ∈ ([0x4, 0x9, 0xA, 0xB] : List (BitVec 4)) →
        2 ^ s.params.handleW ≤ (operandOf cw).toNat →
        step s = .refused (.reservedEncoding .nonZeroMbz)) ∧
      (opcodeOf cw ∈ ([0x5, 0x8] : List (BitVec 4)) → cw.extractLsb' 37 3 ≠ 0 →
        step s = .refused (.reservedEncoding .nonZeroMbz)) ∧
      (∀ i, decode s.params.handleW cw = .ok i → i.port ≠ port ∨ i.level ≠ s.params.level →
        step s = .refused .wrongPort))

/-! ### Slots and queue operations -/

/-- R42: a slot access moves one whole Frame, changes no other slot and no register, and reading a slot
(POP and RECV) leaves every slot as it was. -/
def Obligations.SlotAccessMovesOneWholeFrame : Prop :=
  (∀ (s : State) (i : Nat) (f : Frame), i < s.params.capacity →
    ∃ t, memWrite i f s = .next t ∧
      t = { s with slots := t.slots } ∧
      memRead i t = .next f ∧
      (∀ j, j ≠ i → memRead j t = memRead j s)) ∧
  (∀ (s : State) (i : Nat) (f : Frame), i < s.params.capacity → s.slots.read i = some f →
    memRead i s = .next f) ∧
  (∀ s t : State, exec .pop s = .next t ∨ exec .recv s = .next t → t.slots = s.slots)

/-- R80 W1 to W4: a PUSH below the capacity writes `head`'s slot and no other, advances `head`, counts one
more, answers true, and changes nothing else (PARALLEL_DOMAINS = false). -/
def Obligations.PushStoresAtHead : Prop :=
  ∀ (s : State) (f : Frame),
    s.iPhase = .idle → s.params.parallelDomains = false →
    s.head < s.params.capacity → s.count < s.params.capacity →
    ∃ t, exec (.push f) s = .next t ∧
      t = { s with
        slots := t.slots
        head := (s.head + 1) % s.params.capacity
        count := s.count + 1
        responses := s.responses ++ [(.w, .rb 1)] } ∧
      t.slots.read s.head = some f ∧
      ∀ j, j ≠ s.head → t.slots.read j = s.slots.read j

/-- R114, R100, R150: receive overflow. PUSH on a full queue answers false and changes nothing else, at W1
in either setting of PARALLEL_DOMAINS; inside RXIRQ the frame is dropped after the fetch and nobody is
told. The single step of the second clause is the spec's decision D10; the third clause (`iPhase`, W1 a
step after X1) is log 9, DESIGN CHOICE. -/
def Obligations.OverflowDropsTheNewestFrame : Prop :=
  (∀ (s : State) (f : Frame), s.iPhase = .idle → s.count = s.params.capacity →
    exec (.push f) s = .next { s with responses := s.responses ++ [(.w, .rb 0)] }) ∧
  (∀ (s : State) (src : Handle) (m : RxMessage),
    s.iPhase = .idle → s.params.parallelDomains = false →
    s.drvState = .ready → s.handle = some src → s.count = s.params.capacity →
    (takeAnswer s.env.getRx Config.freeRx s.draws).1 = some m → m.hdr.dlc.toNat ≤ 8 →
    exec (.rxirq src) s = .next
      { s with
        env := { s.env with getRx := (takeAnswer s.env.getRx Config.freeRx s.draws).2.1 }
        draws := (takeAnswer s.env.getRx Config.freeRx s.draws).2.2
        calls := s.calls ++ [.getRx src] }) ∧
  (∀ (s : State) (src : Handle), s.iPhase = .w1 → s.count = s.params.capacity →
    exec (.rxirq src) s = .next { s with iPhase := .idle })

/-- R80, R150 d: PUSH's micro-steps with PARALLEL_DOMAINS = true. -/
def Obligations.PushMicroSteps : Prop :=
  ∀ (s : State) (f : Frame),
    (s.iPhase = .idle → s.params.parallelDomains = true → s.count ≠ s.params.capacity →
      exec (.push f) s = .next { s with iFrame := f, iPhase := .w2 }) ∧
    (s.iPhase = .w2 → s.head < s.params.capacity →
      ∃ t, exec (.push f) s = .next t ∧ t = { s with slots := t.slots, iPhase := .w3 } ∧
        t.slots.read s.head = some s.iFrame ∧
        ∀ j, j ≠ s.head → t.slots.read j = s.slots.read j) ∧
    (s.iPhase = .w3 →
      exec (.push f) s = .next
        { s with head := (s.head + 1) % s.params.capacity, iPhase := .w4 }) ∧
    (s.iPhase = .w4 → s.count < s.params.capacity →
      exec (.push f) s = .next
        { s with
          count := s.count + 1
          iPhase := .idle
          responses := s.responses ++ [(.w, .rb 1)] })

/-- R81: POP's micro-steps P1 (with a frame held) to P4; no slot and no producer register changes. -/
def Obligations.PopMicroSteps : Prop :=
  ∀ s : State,
    (s.tPhase = .idle → s.count ≠ 0 → exec .pop s = .next { s with tPhase := .p2 }) ∧
    (∀ f, s.tPhase = .p2 → s.tail < s.params.capacity → s.slots.read s.tail = some f →
      exec .pop s = .next { s with tFrame := f, tPhase := .p3 }) ∧
    (s.tPhase = .p3 →
      exec .pop s = .next { s with tail := (s.tail + 1) % s.params.capacity, tPhase := .p4 }) ∧
    (s.tPhase = .p4 → 1 ≤ s.count →
      exec .pop s = .next
        { s with
          count := s.count - 1
          tPhase := .idle
          responses := s.responses ++ [(.r, .rf (rfWord (some s.tFrame)))] })

/-- R117, R81: POP and RECV on an empty queue answer `None` and change nothing else; RECV's `None` is the
same word when the driver is not ready. -/
def Obligations.EmptyQueueAnswersNone : Prop :=
  ∀ s : State, s.tPhase = .idle →
    (s.count = 0 → exec .pop s = .next { s with responses := s.responses ++ [(.r, .rf 0)] }) ∧
    (s.count = 0 ∨ s.drvState = .uninitialized →
      exec .recv s = .next { s with responses := s.responses ++ [(.t, .rf 0)] })

/-- R82, R83 g: SIZE. Word 0x2 on the R-port at LEVEL = QUEUE, task domain; one micro-step that answers
`count` zero-extended to 32 bits (D24), the length of the content, and writes no state. The refusal inside
another operation is R27, R118 (the spec's decision D23), in the form log 12 (DESIGN CHOICE) gives `exec`. -/
def Obligations.SizeReportsTheCount : Prop :=
  encode .size = 0x2 ∧ Instr.size.port = .r ∧ Instr.size.level = .queue ∧
  Instr.size.domain = .task ∧
  ∀ s : State,
    (s.tPhase = .idle → ∃ n : BitVec 32,
      exec .size s = .next { s with responses := s.responses ++ [(.r, .rc n)] } ∧
      (s.count < 2 ^ 32 → n.toNat = s.count) ∧
      (Inv s → n.toNat = (contents s).length ∧ n.toNat ≤ s.params.capacity)) ∧
    (s.tPhase ≠ .idle → exec .size s = .refused .taskBusy)

/-- R81 whole: from a quiescent good state with a frame held, POP.P1 to POP.P4 return the oldest frame,
advance `tail`, count one less, and change nothing else but the working register. -/
def Obligations.PopReturnsTheOldestFrame : Prop :=
  ∀ s : State, Inv s → Quiescent s → s.params.level = .queue → s.count ≠ 0 →
    ∃ f, (contents s).head? = some (some f) ∧
      runSteps 4 { s with inputs := popLine } = .next
        { s with
          tail := (s.tail + 1) % s.params.capacity
          count := s.count - 1
          tFrame := f
          inputs := []
          responses := s.responses ++ [(.r, .rf (rfWord (some f)))] }

/-- R83 d, R49: a frame pushed into an empty queue is what the next POP returns, all four fields. -/
def Obligations.PushThenPopRoundTrip : Prop :=
  ∀ (s : State) (f : Frame), Inv s → Quiescent s → s.params.level = .queue →
    s.params.parallelDomains = false → s.count = 0 →
    ∃ t, runSteps 5 { s with inputs := issue (.push f) :: popLine } = .next t ∧
      t.responses = s.responses ++ [(.w, .rb 1), (.r, .rf (rfWord (some f)))] ∧
      t.count = 0 ∧ Quiescent t

/-! ### Driver operations -/

/-- R90: INIT's micro-steps, whatever the environment answers: a failing answer ends INIT with false, the
third success commits `handle` and `drv_state` in the same step. -/
def Obligations.InitMicroSteps : Prop :=
  ∀ (s : State) (h : Handle),
    (s.tPhase = .idle → s.drvState = .uninitialized →
      let a := takeAnswer s.env.cfgFilter Config.freeAck s.draws
      exec (.init h) s = .next
        { s with
          tArg := h
          tPhase := if a.1 then .i2 else .idle
          env := { s.env with cfgFilter := a.2.1 }
          draws := a.2.2
          calls := s.calls ++ [.cfgFilter h ⟨0, 0⟩]
          responses := if a.1 then s.responses else s.responses ++ [(.t, .rb 0)] }) ∧
    (s.tPhase = .i2 →
      let a := takeAnswer s.env.start Config.freeAck s.draws
      exec (.init h) s = .next
        { s with
          tPhase := if a.1 then .i3 else .idle
          env := { s.env with start := a.2.1 }
          draws := a.2.2
          calls := s.calls ++ [.start s.tArg]
          responses := if a.1 then s.responses else s.responses ++ [(.t, .rb 0)] }) ∧
    (s.tPhase = .i3 →
      let a := takeAnswer s.env.actNotify Config.freeAck s.draws
      exec (.init h) s = .next
        { s with
          tPhase := .idle
          handle := if a.1 then some s.tArg else s.handle
          drvState := if a.1 then .ready else s.drvState
          env := { s.env with actNotify := a.2.1 }
          draws := a.2.2
          calls := s.calls ++ [.actNotify s.tArg [.rxPending, .busError, .busOff]]
          responses := s.responses ++ [(.t, .rb (if a.1 then 1 else 0))] })

/-- R90 e (the spec's decision D14): INIT while Ready is refused. -/
def Obligations.InitWhileReadyIsRefused : Prop :=
  ∀ (s : State) (h : Handle), s.tPhase = .idle → s.drvState = .ready →
    exec (.init h) s = .refused .initWhileReady

/-- R90, R93: `INITOK h` from a quiescent uninitialised driver makes it Ready with exactly that handle, by
exactly three calls in order, and leaves the queue alone. -/
def Obligations.SuccessfulInitMakesTheDriverReady : Prop :=
  ∀ (s : State) (h : Handle), Quiescent s → s.params.level = .driver →
    s.drvState = .uninitialized → handleFits s.params.handleW h = true →
    runSteps 3 { initOk h s with inputs := initLine h } = .next
      { s with
        drvState := .ready
        handle := some h
        tArg := h
        inputs := []
        calls := s.calls ++ [.cfgFilter h ⟨0, 0⟩, .start h, .actNotify h allNotifications]
        responses := s.responses ++ [(.t, .rb 1)] }

/-- R116, R94: before a successful INIT, SEND answers false and RECV `None`, the interrupt entries do
nothing, and none of them calls the peripheral or changes anything else. -/
def Obligations.NotReadyFailsSafely : Prop :=
  ∀ s : State, s.drvState = .uninitialized →
    (∀ f, s.tPhase = .idle →
      exec (.send f) s = .next { s with responses := s.responses ++ [(.t, .rb 0)] }) ∧
    (s.tPhase = .idle →
      exec .recv s = .next { s with responses := s.responses ++ [(.t, .rf 0)] }) ∧
    (∀ src, s.iPhase = .idle → exec (.rxirq src) s = .next s) ∧
    (∀ src, exec (.errirq src) s = .next s) ∧
    (∀ src, exec (.boffirq src) s = .next s)

/-- R112, R11: SEND of a frame with `dlc > 8`, or an identifier above its width's bound, answers false with
no peripheral call and no other effect. -/
def Obligations.InvalidFrameIsRejectedBeforeHardware : Prop :=
  ∀ (s : State) (f : Frame), s.tPhase = .idle →
    (8 < f.dlc.toNat ∨ (f.extended = false ∧ 0x7FF < f.id.toNat) ∨
      (f.extended = true ∧ 0x1FFFFFFF < f.id.toNat)) →
    exec (.send f) s = .next { s with responses := s.responses ++ [(.t, .rb 0)] }

/-- R91: SEND's micro-steps for a valid frame in Ready: T1 latches it, T2 makes one AddTx call with the
header of the rule and all 8 payload bytes and answers what the peripheral answered; with no handle T2
answers false and calls nothing (log 11, DEDUCED). -/
def Obligations.SendMicroSteps : Prop :=
  (∀ (s : State) (f : Frame), s.tPhase = .idle → s.drvState = .ready → f.dlc.toNat ≤ 8 →
    (f.extended = true → f.id.toNat ≤ 0x1FFFFFFF) → (f.extended = false → f.id.toNat ≤ 0x7FF) →
    exec (.send f) s = .next { s with tFrame := f, tPhase := .t2 }) ∧
  (∀ (s : State) (f : Frame) (h : Handle), s.tPhase = .t2 → s.handle = some h →
    let a := takeAnswer s.env.addTx Config.freeAck s.draws
    let hdr : Header :=
      { ide := s.tFrame.extended
        stdId := if s.tFrame.extended then 0 else s.tFrame.id.extractLsb' 0 11
        extId := if s.tFrame.extended then s.tFrame.id.extractLsb' 0 29 else 0
        dlc := s.tFrame.dlc.extractLsb' 0 4 }
    exec (.send f) s = .next
      { s with
        tPhase := .idle
        env := { s.env with addTx := a.2.1 }
        draws := a.2.2
        calls := s.calls ++ [.addTx h hdr s.tFrame.data]
        responses := s.responses ++ [(.t, .rb (if a.1 then 1 else 0))] }) ∧
  (∀ (s : State) (f : Frame), s.tPhase = .t2 → s.handle = none →
    exec (.send f) s = .next
      { s with tPhase := .idle, responses := s.responses ++ [(.t, .rb 0)] })

/-- R113: a false answer of AddTx is SEND's response false, after that one call, with no retry; the
response is the one of a validation failure (R112) and of a driver that is not ready (R116). -/
def Obligations.AdmissionFailureIsReportedOnce : Prop :=
  ∀ (s : State) (f : Frame) (h : Handle), s.tPhase = .t2 → s.handle = some h →
    (takeAnswer s.env.addTx Config.freeAck s.draws).1 = false →
    ∃ t, exec (.send f) s = .next t ∧ t.tPhase = .idle ∧
      t.calls = s.calls ++ [.addTx h (txHeader s.tFrame) s.tFrame.data] ∧
      t.responses = s.responses ++ [(.t, .rb 0)] ∧
      ∀ (u v : State) (g : Frame), u.tPhase = .idle →
        validFrame g = false ∨ u.drvState = .uninitialized → exec (.send g) u = .next v →
        v.responses = u.responses ++ [(.t, .rb 0)]

/-- R91 T2, R103: for a valid frame the transmit header loses nothing: translating it back gives the
frame, and its length is one the receiver accepts. -/
def Obligations.TransmitHeaderLosesNothing : Prop :=
  ∀ f : Frame, validFrame f = true →
    translateRx ⟨txHeader f, f.data⟩ = f ∧ rxDlcBad (txHeader f) = false

/-- R92: RECV's micro-steps in Ready are POP's, answered on the T-port. -/
def Obligations.RecvMicroSteps : Prop :=
  ∀ s : State,
    (s.tPhase = .idle → s.drvState = .ready → s.count ≠ 0 →
      exec .recv s = .next { s with tPhase := .p2 }) ∧
    (∀ f, s.tPhase = .p2 → s.tail < s.params.capacity → s.slots.read s.tail = some f →
      exec .recv s = .next { s with tFrame := f, tPhase := .p3 }) ∧
    (s.tPhase = .p3 →
      exec .recv s = .next { s with tail := (s.tail + 1) % s.params.capacity, tPhase := .p4 }) ∧
    (s.tPhase = .p4 → 1 ≤ s.count →
      exec .recv s = .next
        { s with
          count := s.count - 1
          tPhase := .idle
          responses := s.responses ++ [(.t, .rf (rfWord (some s.tFrame)))] })

/-! ### Interrupt entries -/

/-- R100, R122 (the spec's decision D16): an event before Ready, or of another peripheral, is ignored: no
fetch, no change at all. -/
def Obligations.ForeignEventIsIgnored : Prop :=
  ∀ (s : State) (src : Handle), s.iPhase = .idle →
    s.drvState = .uninitialized ∨ s.handle ≠ some src → exec (.rxirq src) s = .next s

/-- R115: a fetch that answers `None` is a spurious event: one GetRx call, nothing pushed, nothing
reported, nothing recorded. -/
def Obligations.FetchFailurePushesNothing : Prop :=
  ∀ (s : State) (src : Handle), s.iPhase = .idle → s.drvState = .ready → s.handle = some src →
    (takeAnswer s.env.getRx Config.freeRx s.draws).1 = none →
    exec (.rxirq src) s = .next
      { s with
        env := { s.env with getRx := (takeAnswer s.env.getRx Config.freeRx s.draws).2.1 }
        draws := (takeAnswer s.env.getRx Config.freeRx s.draws).2.2
        calls := s.calls ++ [.getRx src] }

/-- R100, R103, R149: RXIRQ fetches exactly one message; with room in the queue (PARALLEL_DOMAINS = false)
the frame translated from it is stored at `head` and counted, and nobody gets a response; with
PARALLEL_DOMAINS = true the frame is latched for PUSH's W1 (log 9, DESIGN CHOICE). -/
def Obligations.RxirqStoresOneTranslatedFrame : Prop :=
  ∀ (s : State) (src : Handle) (m : RxMessage),
    s.iPhase = .idle → s.drvState = .ready → s.handle = some src →
    (takeAnswer s.env.getRx Config.freeRx s.draws).1 = some m → m.hdr.dlc.toNat ≤ 8 →
    let f : Frame :=
      { id := if m.hdr.ide then m.hdr.extId.setWidth 32 else m.hdr.stdId.setWidth 32
        extended := m.hdr.ide
        dlc := m.hdr.dlc.setWidth 8
        data := m.data }
    (s.params.parallelDomains = false → s.head < s.params.capacity →
      s.count < s.params.capacity →
      ∃ t, exec (.rxirq src) s = .next t ∧
        t = { s with
          slots := t.slots
          head := (s.head + 1) % s.params.capacity
          count := s.count + 1
          env := { s.env with getRx := (takeAnswer s.env.getRx Config.freeRx s.draws).2.1 }
          draws := (takeAnswer s.env.getRx Config.freeRx s.draws).2.2
          calls := s.calls ++ [.getRx src] } ∧
        t.slots.read s.head = some f ∧
        ∀ j, j ≠ s.head → t.slots.read j = s.slots.read j) ∧
    (s.params.parallelDomains = true →
      exec (.rxirq src) s = .next
        { s with
          iFrame := f
          iArg := src
          iPhase := .w1
          env := { s.env with getRx := (takeAnswer s.env.getRx Config.freeRx s.draws).2.1 }
          draws := (takeAnswer s.env.getRx Config.freeRx s.draws).2.2
          calls := s.calls ++ [.getRx src] })

/-- R100, R150 d: the PUSH inside RXIRQ with PARALLEL_DOMAINS = true; its result is discarded. -/
def Obligations.RxirqPushMicroSteps : Prop :=
  ∀ (s : State) (src : Handle),
    (s.iPhase = .w1 → s.count ≠ s.params.capacity →
      exec (.rxirq src) s = .next { s with iPhase := .w2 }) ∧
    (s.iPhase = .w2 → s.head < s.params.capacity →
      ∃ t, exec (.rxirq src) s = .next t ∧ t = { s with slots := t.slots, iPhase := .w3 } ∧
        t.slots.read s.head = some s.iFrame ∧
        ∀ j, j ≠ s.head → t.slots.read j = s.slots.read j) ∧
    (s.iPhase = .w3 →
      exec (.rxirq src) s = .next
        { s with head := (s.head + 1) % s.params.capacity, iPhase := .w4 }) ∧
    (s.iPhase = .w4 → s.count < s.params.capacity →
      exec (.rxirq src) s = .next { s with count := s.count + 1, iPhase := .idle })

/-- R103 (the spec's decision D19): a received length above 8 is refused; at most 8 gives a valid frame. -/
def Obligations.ReceivedLengthIsBounded : Prop :=
  (∀ (s : State) (src : Handle) (m : RxMessage),
    s.iPhase = .idle → s.drvState = .ready → s.handle = some src →
    (takeAnswer s.env.getRx Config.freeRx s.draws).1 = some m → 8 < m.hdr.dlc.toNat →
    exec (.rxirq src) s = .refused .rxDlcOutOfRange) ∧
  ∀ m : RxMessage, m.hdr.dlc.toNat ≤ 8 → validFrame (translateRx m) = true

/-- R101, R102 (the spec's decision D17): bus-error and bus-off events change nothing, in any state. -/
def Obligations.ErrorEventsHaveNoEffect : Prop :=
  ∀ (s : State) (src : Handle),
    exec (.errirq src) s = .next s ∧ exec (.boffirq src) s = .next s

/-! ### The whole machine -/

/-- R30, R141: the reset state. `head = tail = 0` is the spec's decision D6; nothing is said of the slots
and working registers the spec leaves unspecified. -/
def Obligations.ResetStateIsTheStatedOne : Prop :=
  State.reset.drvState = .uninitialized ∧ State.reset.handle = none ∧
  State.reset.count = 0 ∧ State.reset.head = 0 ∧ State.reset.tail = 0 ∧
  State.reset.tPhase = .idle ∧ State.reset.params = ⟨32, 32, .driver, false⟩ ∧
  queueEmpty State.reset = true ∧ queueFull State.reset = false

/-- R18, R24, R30: the invariant holds after construction with any legal parameters, this hardware's
among them (`iPhase` IDLE at construction is log 9, DESIGN CHOICE). -/
def Obligations.InvariantHoldsAtReset : Prop :=
  (∀ p : Params, p.wf = true → Inv (State.construct p)) ∧ Inv State.reset

/-- R18, R24, R84: every step keeps the invariant, at both levels, for every capacity and handle width, in
both settings of PARALLEL_DOMAINS, whatever is presented and whatever the peripheral answers. -/
def Obligations.EveryStepKeepsTheInvariant : Prop :=
  ∀ s t : State, Inv s → step s = .next t → Inv t

/-- R110, R41, R85: from a good state no step faults: every index is in range, no slot is read before it
is written, `count` neither overflows nor underflows. -/
def Obligations.NoStepFaults : Prop :=
  ∀ s : State, Inv s → ∀ e, step s ≠ .fault e

/-- R110, R104, R147: an operation started or continued in a good state at its own level always goes on;
only INIT while Ready and a received length above 8 are refused. -/
def Obligations.EveryOperationGoesOn : Prop :=
  ∀ (s : State) (i : Instr), Inv s → i.level = s.params.level →
    (i.domain = .task → s.tPhase = .idle ∨ taskInProgress s = some i) →
    (∃ t, exec i s = .next t) ∨
    (∃ h, i = .init h ∧ s.drvState = .ready ∧ exec i s = .refused .initWhileReady) ∨
    (∃ src, i = .rxirq src ∧ s.drvState = .ready ∧ exec i s = .refused .rxDlcOutOfRange)

/-- R18: at a quiescent point the ranges and `head == (tail + count) mod C` hold and the content is R32's
list of written slots; between P3 and P4 (no PUSH between W3 and W4) `head == (tail + count - 1) mod C`. -/
def Obligations.QueueRelationHolds : Prop :=
  ∀ s : State, Inv s →
    (Quiescent s →
      s.count ≤ s.params.capacity ∧ s.head < s.params.capacity ∧ s.tail < s.params.capacity ∧
      s.head = (s.tail + s.count) % s.params.capacity ∧
      (∀ k < s.count, ∃ f, s.slots.read ((s.tail + k) % s.params.capacity) = some f ∧
        (contents s)[k]? = some (some f)) ∧
      (contents s).length = s.count) ∧
    (s.tPhase = .p4 → s.iPhase ≠ .w4 →
      s.head = (s.tail + s.count - 1) % s.params.capacity)

/-- R3, R15, R16, R17: the registers fit `IDX_W` and `CNT_W` bits; 5 and 6 bits for this hardware. -/
def Obligations.RegistersFitTheirWidths : Prop :=
  Config.idxW 32 = 5 ∧ Config.cntW 32 = 6 ∧
  ∀ s : State, Inv s →
    s.head < 2 ^ Config.idxW s.params.capacity ∧ s.tail < 2 ^ Config.idxW s.params.capacity ∧
    s.count < 2 ^ Config.cntW s.params.capacity

/-- R83 g, R84: every step of a good state is, on the abstract content, nothing, one append below the
capacity, or one removal of the oldest frame, which is then the frame returned. -/
def Obligations.EveryStepIsOneQueueEvent : Prop :=
  ∀ s t : State, Inv s → step s = .next t →
    (contents t = contents s ∧ framesReturned s t = []) ∨
    (∃ f, contents t = contents s ++ [some f] ∧ (contents s).length < s.params.capacity ∧
      framesReturned s t = []) ∨
    (∃ f, contents s = some f :: contents t ∧ framesReturned s t = [f])

/-- R55, R83 b: over any run from a good state, what was held plus what was accepted, in order, is what
was delivered, in order, plus what is still held. -/
def Obligations.DeliveryIsFifo : Prop :=
  ∀ (k : Nat) (s t : State), Inv s → runSteps k s = .next t →
    contents s ++ accepted k s = (delivered k s).map some ++ contents t

/-- R83 g: which frame is appended: PUSH's operand, RXIRQ's translation, and at W4 the PUSH in progress. -/
def Obligations.AcceptedFrameIsTheOneOffered : Prop :=
  (∀ (s : State) (f : Frame), Inv s → s.iPhase = .idle → s.params.parallelDomains = false →
    s.count < s.params.capacity →
    ∃ t, exec (.push f) s = .next t ∧ contents t = contents s ++ [some f]) ∧
  (∀ (s : State) (src : Handle) (m : RxMessage), Inv s → s.iPhase = .idle →
    s.params.parallelDomains = false → s.drvState = .ready → s.handle = some src →
    (takeAnswer s.env.getRx Config.freeRx s.draws).1 = some m → m.hdr.dlc.toNat ≤ 8 →
    s.count < s.params.capacity →
    ∃ t, exec (.rxirq src) s = .next t ∧ contents t = contents s ++ [some (translateRx m)]) ∧
  (∀ (s : State) (f : Frame), Inv s → s.iPhase = .w4 →
    ∃ t, exec (.push f) s = .next t ∧ contents t = contents s ++ [some s.iFrame])

/-- R81 c, R84: an interrupt-domain operation that runs while a POP or RECV is in progress never disturbs
the frame being popped: it stays the oldest, and from P3 on it is the one `t_frame` holds. -/
def Obligations.PreemptionKeepsTheOldestFrame : Prop :=
  ∀ (s t : State) (i : Instr), Inv s → i.domain = .interrupt → i.level = s.params.level →
    s.tPhase = .p2 ∨ s.tPhase = .p3 ∨ s.tPhase = .p4 → exec i s = .next t →
    t.tPhase = s.tPhase ∧ t.tFrame = s.tFrame ∧ (contents t).head? = (contents s).head? ∧
    (s.tPhase ≠ .p2 → (contents s).head? = some (some s.tFrame))

/-- R52, R45 a: `count` moves only by one: up in a step that leaves the consumer's registers alone, or
down at P4. -/
def Obligations.CountMovesByOne : Prop :=
  ∀ s t : State, step s = .next t →
    t.count = s.count ∨
    (t.count = s.count + 1 ∧ t.tail = s.tail ∧ t.tPhase = s.tPhase) ∨
    (t.count + 1 = s.count ∧ s.tPhase = .p4 ∧ t.tPhase = .idle ∧ t.head = s.head)

/-- R22 (bit values: D5), R24 c, R142: `drv_state` has two values; nothing leaves Ready and the handle
then stays; the only way into Ready is the third step of an INIT whose answer was true, with its handle. -/
def Obligations.ReadyIsReachedOnlyByInitAndForever : Prop :=
  DrvState.uninitialized.bit = 0 ∧ DrvState.ready.bit = 1 ∧
  (∀ d : DrvState, d = .uninitialized ∨ d = .ready) ∧
  ∀ s t : State, Inv s → step s = .next t →
    (s.drvState = .ready → t.drvState = .ready ∧ t.handle = s.handle) ∧
    (s.drvState = .uninitialized →
      (t.drvState = .uninitialized ∧ t.handle = none) ∨
      (t.drvState = .ready ∧ t.handle = some s.tArg ∧ s.tPhase = .i3 ∧
        (takeAnswer s.env.actNotify Config.freeAck s.draws).1 = true ∧
        t.responses = s.responses ++ [(.t, .rb 1)]))

/-- R20, R2, R5, R6: the parameters never change. -/
def Obligations.ParametersNeverChange : Prop :=
  ∀ s t : State, step s = .next t → t.params = s.params

/-- R21, R124, R100 f: an interrupt-domain operation leaves the task domain's registers, the driver's
registers and every slot but `head`'s alone, and never counts down. -/
def Obligations.InterruptDomainFrame : Prop :=
  ∀ (s t : State) (i : Instr), i.domain = .interrupt → exec i s = .next t →
    t.tPhase = s.tPhase ∧ t.tFrame = s.tFrame ∧ t.tArg = s.tArg ∧ t.tail = s.tail ∧
    t.drvState = s.drvState ∧ t.handle = s.handle ∧ t.params = s.params ∧ t.inputs = s.inputs ∧
    s.count ≤ t.count ∧ ∀ j, j ≠ s.head → t.slots.read j = s.slots.read j

/-- R21, R127: a task-domain operation leaves `head`, the slots and the interrupt domain's registers alone,
and never counts up; POP, SIZE and RECV make no peripheral call and leave the driver alone. -/
def Obligations.TaskDomainFrame : Prop :=
  ∀ (s t : State) (i : Instr), i.domain = .task → exec i s = .next t →
    t.head = s.head ∧ t.slots = s.slots ∧ t.iPhase = s.iPhase ∧ t.iFrame = s.iFrame ∧
    t.iArg = s.iArg ∧ t.params = s.params ∧ t.inputs = s.inputs ∧ t.count ≤ s.count ∧
    (i = .pop ∨ i = .size ∨ i = .recv →
      t.drvState = s.drvState ∧ t.handle = s.handle ∧ t.tArg = s.tArg ∧
      t.calls = s.calls ∧ t.env = s.env ∧ t.draws = s.draws)

/-- R46, R104, R91 h: a step makes at most one peripheral call and returns at most one response. -/
def Obligations.AtMostOneCallAndResponsePerStep : Prop :=
  ∀ s t : State, step s = .next t →
    (t.calls = s.calls ∨ ∃ c, t.calls = s.calls ++ [c]) ∧
    (t.responses = s.responses ∨ ∃ r, t.responses = s.responses ++ [r])

/-- R155, R148: with nothing more presented, every started operation completes: from a good state at most
seven steps lead to a quiescent one. -/
def Obligations.StartedOperationsComplete : Prop :=
  ∀ s : State, Inv s → s.inputs = [] →
    ∃ k ≤ 7, ∃ t, runSteps k s = .next t ∧ Quiescent t ∧ Inv t ∧ t.inputs = []

/-- R32, R30 (D6): where the queue stands in its slots cannot be observed: two good states that differ
only there give the same outcome of every step, again up to where the queue stands. -/
def Obligations.QueuePositionIsUnobservable : Prop :=
  ∀ s t : State, Inv s → Inv t → SameView s t →
    (∀ s', step s = .next s' → ∃ t', step t = .next t' ∧ SameView s' t') ∧
    (∀ r, step s = .refused r → step t = .refused r)

/-! ### Steps and ports -/

/-- R69, R27, R150: a command that decodes, on its own port, at its level, issued by its agent, with its
domain idle, is run by the next step. -/
def Obligations.StepRunsTheAcceptedCommand : Prop :=
  ∀ (s : State) (port : Port) (cw : CmdWord) (rest : List Input) (i : Instr),
    s.inputs = .command i.domain port cw :: rest → decode s.params.handleW cw = .ok i →
    i.port = port → i.level = s.params.level →
    (i.domain = .task → s.tPhase = .idle) → (i.domain = .interrupt → s.iPhase = .idle) →
    step s = exec i { s with inputs := rest }

/-- R27, R125, R150: a domain that is scheduled continues the operation its sequencer names, with the
operand the working registers hold. -/
def Obligations.StepContinuesTheOperationInProgress : Prop :=
  ∀ (s : State) (rest : List Input),
    (s.inputs = .resume .task :: rest →
      (s.tPhase = .p2 ∨ s.tPhase = .p3 ∨ s.tPhase = .p4 →
        (s.params.level = .queue → step s = exec .pop { s with inputs := rest }) ∧
        (s.params.level = .driver → step s = exec .recv { s with inputs := rest })) ∧
      (s.tPhase = .i2 ∨ s.tPhase = .i3 →
        step s = exec (.init s.tArg) { s with inputs := rest }) ∧
      (s.tPhase = .t2 → step s = exec (.send s.tFrame) { s with inputs := rest }) ∧
      (s.tPhase = .idle → step s = .next { s with inputs := rest })) ∧
    (s.inputs = .resume .interrupt :: rest →
      (s.iPhase ≠ .idle → s.params.level = .queue →
        step s = exec (.push s.iFrame) { s with inputs := rest }) ∧
      (s.iPhase ≠ .idle → s.params.level = .driver →
        step s = exec (.rxirq s.iArg) { s with inputs := rest }) ∧
      (s.iPhase = .idle → step s = .next { s with inputs := rest }))

/-- R27, R118: a task-domain command presented while a task-domain operation is in progress is refused. -/
def Obligations.CommandInsideAnOperationIsRefused : Prop :=
  ∀ (s : State) (cw : CmdWord) (rest : List Input) (i : Instr),
    s.inputs = .command .task i.port cw :: rest → decode s.params.handleW cw = .ok i →
    i.level = s.params.level → i.domain = .task → s.tPhase ≠ .idle →
    step s = .refused .taskBusy

/-- R125: an interrupt-domain operation presented while one is in progress is not lost: the one in
progress takes its next micro-step and the presented one still stands first. -/
def Obligations.EventDuringAnEventWaits : Prop :=
  ∀ (s : State) (cw : CmdWord) (rest : List Input) (i : Instr),
    s.inputs = .command .interrupt i.port cw :: rest → decode s.params.handleW cw = .ok i →
    i.level = s.params.level → i.domain = .interrupt → s.iPhase ≠ .idle →
    (s.params.level = .queue → step s = exec (.push s.iFrame) s) ∧
    (s.params.level = .driver → step s = exec (.rxirq s.iArg) s)

/-- R155 (log 4): with nothing presented a quiescent block stays as it is; otherwise the interrupt
domain's operation goes on first (R123 a), then the task domain's. -/
def Obligations.NothingPresentedOnlyFinishes : Prop :=
  ∀ s : State, s.inputs = [] →
    (Quiescent s → step s = .next s) ∧
    (s.iPhase ≠ .idle → s.params.level = .queue → step s = exec (.push s.iFrame) s) ∧
    (s.iPhase ≠ .idle → s.params.level = .driver → step s = exec (.rxirq s.iArg) s) ∧
    (s.iPhase = .idle → s.tPhase = .i2 ∨ s.tPhase = .i3 → step s = exec (.init s.tArg) s) ∧
    (s.iPhase = .idle → s.tPhase = .t2 → step s = exec (.send s.tFrame) s) ∧
    (s.iPhase = .idle → s.tPhase = .p2 ∨ s.tPhase = .p3 ∨ s.tPhase = .p4 →
      (s.params.level = .queue → step s = exec .pop s) ∧
      (s.params.level = .driver → step s = exec .recv s))
end

