-- ==== Sys2Proof/Laws/Encoding.lean ====
section
/-! SUPPORT. Laws of the encoder: where the opcode and the operand of a command word are. -/

namespace Sys2Proof

/-- Every opcode is a nibble of its own: the opcode tells the constructor's row (30_encoding R63). -/
@[simp] theorem opcodeOf_encode (i : Instr) : opcodeOf (encode i) = i.opcode := by
  simp only [opcodeOf, encode]
  exact BitVec.extractLsb'_append_eq_right

@[simp] theorem operandOf_encode (i : Instr) : operandOf (encode i) = i.operand := by
  simp only [operandOf, encode]
  exact BitVec.extractLsb'_append_eq_left

/-- A command word is its operand over its opcode (R60). -/
theorem operandOf_append_opcodeOf (cw : CmdWord) : operandOf cw ++ opcodeOf cw = cw := by
  apply BitVec.eq_of_getLsbD_eq
  intro k hk
  simp only [operandOf, opcodeOf, BitVec.getLsbD_append, BitVec.getLsbD_extractLsb']
  by_cases h : k < 4
  · simp [h]
  · simp [h, show k - 4 < 108 by omega, show 4 + (k - 4) = k by omega]

/-- `BitVec.getLsbD_append` with the lower width as a free number, for images whose widths are written as
sums. -/
theorem getLsbD_append_of_eq {n m : Nat} (j c : Nat) (x : BitVec n) (y : BitVec m) (h : c = m) :
    (x ++ y).getLsbD j = if j < c then y.getLsbD j else x.getLsbD (j - c) := by
  subst h
  exact BitVec.getLsbD_append

/-- Bit `k` of the data field: `data[i]` at bits `8i+7 : 8i` (R62, D32). -/
theorem payloadBits_getLsbD (d : Payload) (k : Nat) :
    (payloadBits d).getLsbD k =
      if k < 8 then d.b0.getLsbD k
      else if k < 16 then d.b1.getLsbD (k - 8)
      else if k < 24 then d.b2.getLsbD (k - 16)
      else if k < 32 then d.b3.getLsbD (k - 24)
      else if k < 40 then d.b4.getLsbD (k - 32)
      else if k < 48 then d.b5.getLsbD (k - 40)
      else if k < 56 then d.b6.getLsbD (k - 48)
      else d.b7.getLsbD (k - 56) := by
  refine (getLsbD_append_of_eq (n := 56) k 8 _ _ rfl).trans
    (ite_congr rfl (fun _ => rfl) fun _ => ?_)
  refine (getLsbD_append_of_eq (n := 48) _ 8 _ _ rfl).trans
    (ite_congr (by simp; omega) (fun _ => rfl) fun _ => ?_)
  refine (getLsbD_append_of_eq (n := 40) _ 8 _ _ rfl).trans
    (ite_congr (by simp; omega) (fun _ => by congr 1) fun _ => ?_)
  refine (getLsbD_append_of_eq (n := 32) _ 8 _ _ rfl).trans
    (ite_congr (by simp; omega) (fun _ => by congr 1) fun _ => ?_)
  refine (getLsbD_append_of_eq (n := 24) _ 8 _ _ rfl).trans
    (ite_congr (by simp; omega) (fun _ => by congr 1) fun _ => ?_)
  refine (getLsbD_append_of_eq (n := 16) _ 8 _ _ rfl).trans
    (ite_congr (by simp; omega) (fun _ => by congr 1) fun _ => ?_)
  refine (getLsbD_append_of_eq (n := 8) _ 8 _ _ rfl).trans
    (ite_congr (by simp; omega) (fun _ => by congr 1) fun _ => ?_)
  congr 1

/-- Bit `k` of the frame image: id 31:0, extended 32, zero 35:33, dlc 43:36, data 107:44 (R62). -/
theorem frameImage_getLsbD (f : Frame) (k : Nat) :
    (frameImage f).getLsbD k =
      if k < 32 then f.id.getLsbD k
      else if k < 33 then f.extended
      else if k < 36 then false
      else if k < 44 then f.dlc.getLsbD (k - 36)
      else (payloadBits f.data).getLsbD (k - 44) := by
  refine (getLsbD_append_of_eq (n := 76) k 32 _ _ rfl).trans
    (ite_congr rfl (fun _ => rfl) fun _ => ?_)
  refine (getLsbD_append_of_eq (n := 75) _ 1 _ _ rfl).trans
    (ite_congr (by simp; omega) (fun h => ?_) fun _ => ?_)
  · have h0 : k - 32 = 0 := by omega
    simp [h0]
  refine (getLsbD_append_of_eq (n := 72) _ 3 _ _ rfl).trans
    (ite_congr (by simp; omega) (fun _ => by simp) fun _ => ?_)
  refine (getLsbD_append_of_eq (n := 64) _ 8 _ _ rfl).trans
    (ite_congr (by simp; omega) (fun _ => by congr 1) fun _ => ?_)
  congr 1

/-- Bit `k` of a command word: the opcode nibble, then the operand (R60). -/
theorem encode_getLsbD (i : Instr) (k : Nat) :
    (encode i).getLsbD k =
      if k < 4 then i.opcode.getLsbD k else i.operand.getLsbD (k - 4) :=
  getLsbD_append_of_eq k 4 _ _ rfl

end Sys2Proof
end

