-- ==== Sys2Proof/Laws/Memory.lean ====
section
/-! SUPPORT. Laws of the slot memory: read after write, the canonical form, the index bound, and equal
reads make equal memories (20_memory R42). -/

namespace Sys2Proof.Machine

@[simp] theorem Memory.read_nil (i : Nat) : Memory.read [] i = none := rfl

/-- The slot written reads as the frame written. -/
@[simp] theorem Memory.read_write_same (m : Memory) (i : Nat) (f : Frame) :
    (m.write i f).read i = some f := by
  induction m with
  | nil => simp [Memory.write, Memory.read]
  | cons c rest ih =>
    simp only [Memory.write]
    split
    · simp [Memory.read]
    · split
      · simp [Memory.read]
      · simp [Memory.read, *]

/-- Every other slot reads as before. -/
theorem Memory.read_write_other (m : Memory) {i j : Nat} (f : Frame) (h : j ≠ i) :
    (m.write i f).read j = m.read j := by
  have h' : i ≠ j := fun e => h e.symm
  induction m with
  | nil => simp [Memory.write, Memory.read, h']
  | cons c rest ih =>
    simp only [Memory.write]
    split
    · simp [Memory.read, h']
    · split
      · next hc => simp [Memory.read, h', show c.1 ≠ j from hc ▸ h']
      · simp [Memory.read, ih]

/-- A write puts in no index but the one written. -/
theorem Memory.mem_write {m : Memory} {i : Nat} {f : Frame} {c : Nat × Frame}
    (h : c ∈ m.write i f) : c = (i, f) ∨ c ∈ m := by
  induction m with
  | nil => simpa [Memory.write] using h
  | cons d rest ih =>
    simp only [Memory.write] at h
    split at h
    · simpa using h
    · split at h
      · rcases List.mem_cons.1 h with h | h
        · exact .inl h
        · exact .inr (List.mem_cons_of_mem _ h)
      · rcases List.mem_cons.1 h with h | h
        · exact .inr (h ▸ List.mem_cons_self ..)
        · exact (ih h).imp_right (List.mem_cons_of_mem _)

/-- The canonical form says: the indices rise. -/
theorem Memory.wf_iff (m : Memory) : m.wf = true ↔ m.Pairwise fun a b => a.1 < b.1 := by
  simp [Memory.wf]

theorem Memory.wf_nil : Memory.wf [] = true := rfl

/-- A write keeps the canonical form. -/
theorem Memory.write_wf {m : Memory} (i : Nat) (f : Frame) (h : m.wf = true) :
    (m.write i f).wf = true := by
  rw [Memory.wf_iff] at h ⊢
  induction m with
  | nil => simp [Memory.write]
  | cons c rest ih =>
    obtain ⟨hc, hr⟩ := List.pairwise_cons.1 h
    simp only [Memory.write]
    split
    · next hlt =>
      exact List.pairwise_cons.2 ⟨fun b hb => by
        rcases List.mem_cons.1 hb with rfl | hb
        · exact hlt
        · exact lt_trans hlt (hc b hb), h⟩
    · split
      · next hci => exact List.pairwise_cons.2 ⟨fun b hb => hci ▸ hc b hb, hr⟩
      · next h1 h2 =>
        refine List.pairwise_cons.2 ⟨fun b hb => ?_, ih hr⟩
        rcases Memory.mem_write hb with rfl | hb
        · show c.1 < i
          omega
        · exact hc b hb

/-- A write inside the slot space keeps every index inside it. -/
theorem Memory.write_within {m : Memory} {n i : Nat} (f : Frame)
    (hm : ∀ c ∈ m, c.1 < n) (hi : i < n) : ∀ c ∈ m.write i f, c.1 < n := by
  intro c hc
  rcases Memory.mem_write hc with rfl | hc
  · exact hi
  · exact hm c hc

/-- A frame that is read stands in the memory. -/
theorem Memory.mem_of_read {m : Memory} {i : Nat} {f : Frame} (h : m.read i = some f) :
    (i, f) ∈ m := by
  induction m with
  | nil => simp at h
  | cons c rest ih =>
    simp only [Memory.read] at h
    split at h
    · next hc =>
      obtain ⟨j, g⟩ := c
      simp only [Option.some.injEq] at h hc
      subst hc h
      exact List.mem_cons_self ..
    · exact List.mem_cons_of_mem _ (ih h)

/-- Below the first index of a canonical memory every slot is unwritten. -/
theorem Memory.read_eq_none_of_lt {m : Memory} {i : Nat} (h : ∀ c ∈ m, i < c.1) :
    m.read i = none := by
  cases hr : m.read i with
  | none => rfl
  | some f => exact absurd (h _ (Memory.mem_of_read hr)) (lt_irrefl i)

/-- Two canonical memories that read the same everywhere are equal. -/
theorem Memory.ext_read {m n : Memory} (hm : m.wf = true) (hn : n.wf = true)
    (h : ∀ i, m.read i = n.read i) : m = n := by
  rw [Memory.wf_iff] at hm hn
  induction m generalizing n with
  | nil =>
    cases n with
    | nil => rfl
    | cons d n => exact absurd (h d.1) (by simp [Memory.read])
  | cons c m ih =>
    cases n with
    | nil => exact absurd (h c.1) (by simp [Memory.read])
    | cons d n =>
      obtain ⟨hc, hm⟩ := List.pairwise_cons.1 hm
      obtain ⟨hd, hn⟩ := List.pairwise_cons.1 hn
      have key : c.1 = d.1 := by
        rcases lt_trichotomy c.1 d.1 with hlt | heq | hlt
        · have h1 := h c.1
          rw [Memory.read_eq_none_of_lt (m := d :: n) (fun b hb => by
            rcases List.mem_cons.1 hb with rfl | hb
            · exact hlt
            · exact lt_trans hlt (hd b hb))] at h1
          simp [Memory.read] at h1
        · exact heq
        · have h1 := h d.1
          rw [Memory.read_eq_none_of_lt (m := c :: m) (fun b hb => by
            rcases List.mem_cons.1 hb with rfl | hb
            · exact hlt
            · exact lt_trans hlt (hc b hb))] at h1
          simp [Memory.read] at h1
      have hval : c.2 = d.2 := by simpa [Memory.read, key] using h c.1
      have hrest : ∀ i, Memory.read m i = Memory.read n i := fun i => by
        by_cases hi : c.1 = i
        · rw [Memory.read_eq_none_of_lt (m := m) (fun b hb => hi ▸ hc b hb),
            Memory.read_eq_none_of_lt (m := n) (fun b hb => hi ▸ key ▸ hd b hb)]
        · simpa [Memory.read, hi, key ▸ hi] using h i
      rw [ih hm hn hrest, Prod.ext key hval]

end Sys2Proof.Machine
end

