-- ==== Sys2Proof/Laws/State.lean ====
section
/-! SUPPORT. Field lemmas: what each shared update of State leaves in every field, by definition. -/

namespace Sys2Proof.Machine

@[simp] theorem respond_params (out : Port) (r : Response) (s : State) :
    (respond out r s).params = s.params := rfl
@[simp] theorem respond_slots (out : Port) (r : Response) (s : State) :
    (respond out r s).slots = s.slots := rfl
@[simp] theorem respond_head (out : Port) (r : Response) (s : State) :
    (respond out r s).head = s.head := rfl
@[simp] theorem respond_tail (out : Port) (r : Response) (s : State) :
    (respond out r s).tail = s.tail := rfl
@[simp] theorem respond_count (out : Port) (r : Response) (s : State) :
    (respond out r s).count = s.count := rfl
@[simp] theorem respond_drvState (out : Port) (r : Response) (s : State) :
    (respond out r s).drvState = s.drvState := rfl
@[simp] theorem respond_handle (out : Port) (r : Response) (s : State) :
    (respond out r s).handle = s.handle := rfl
@[simp] theorem respond_tPhase (out : Port) (r : Response) (s : State) :
    (respond out r s).tPhase = s.tPhase := rfl
@[simp] theorem respond_tFrame (out : Port) (r : Response) (s : State) :
    (respond out r s).tFrame = s.tFrame := rfl
@[simp] theorem respond_tArg (out : Port) (r : Response) (s : State) :
    (respond out r s).tArg = s.tArg := rfl
@[simp] theorem respond_iPhase (out : Port) (r : Response) (s : State) :
    (respond out r s).iPhase = s.iPhase := rfl
@[simp] theorem respond_iFrame (out : Port) (r : Response) (s : State) :
    (respond out r s).iFrame = s.iFrame := rfl
@[simp] theorem respond_iArg (out : Port) (r : Response) (s : State) :
    (respond out r s).iArg = s.iArg := rfl
@[simp] theorem respond_inputs (out : Port) (r : Response) (s : State) :
    (respond out r s).inputs = s.inputs := rfl
@[simp] theorem respond_env (out : Port) (r : Response) (s : State) :
    (respond out r s).env = s.env := rfl
@[simp] theorem respond_draws (out : Port) (r : Response) (s : State) :
    (respond out r s).draws = s.draws := rfl
@[simp] theorem respond_responses (out : Port) (r : Response) (s : State) :
    (respond out r s).responses = s.responses ++ [(out, r)] := rfl
@[simp] theorem respond_calls (out : Port) (r : Response) (s : State) :
    (respond out r s).calls = s.calls := rfl

@[simp] theorem advanceHead_params (s : State) : (advanceHead s).params = s.params := rfl
@[simp] theorem advanceHead_slots (s : State) : (advanceHead s).slots = s.slots := rfl
@[simp] theorem advanceHead_head (s : State) :
    (advanceHead s).head = nextIndex s.params.capacity s.head := rfl
@[simp] theorem advanceHead_tail (s : State) : (advanceHead s).tail = s.tail := rfl
@[simp] theorem advanceHead_count (s : State) : (advanceHead s).count = s.count := rfl
@[simp] theorem advanceHead_drvState (s : State) : (advanceHead s).drvState = s.drvState := rfl
@[simp] theorem advanceHead_handle (s : State) : (advanceHead s).handle = s.handle := rfl
@[simp] theorem advanceHead_tPhase (s : State) : (advanceHead s).tPhase = s.tPhase := rfl
@[simp] theorem advanceHead_tFrame (s : State) : (advanceHead s).tFrame = s.tFrame := rfl
@[simp] theorem advanceHead_tArg (s : State) : (advanceHead s).tArg = s.tArg := rfl
@[simp] theorem advanceHead_iPhase (s : State) : (advanceHead s).iPhase = s.iPhase := rfl
@[simp] theorem advanceHead_iFrame (s : State) : (advanceHead s).iFrame = s.iFrame := rfl
@[simp] theorem advanceHead_iArg (s : State) : (advanceHead s).iArg = s.iArg := rfl
@[simp] theorem advanceHead_inputs (s : State) : (advanceHead s).inputs = s.inputs := rfl
@[simp] theorem advanceHead_env (s : State) : (advanceHead s).env = s.env := rfl
@[simp] theorem advanceHead_draws (s : State) : (advanceHead s).draws = s.draws := rfl
@[simp] theorem advanceHead_responses (s : State) : (advanceHead s).responses = s.responses := rfl
@[simp] theorem advanceHead_calls (s : State) : (advanceHead s).calls = s.calls := rfl

@[simp] theorem advanceTail_params (s : State) : (advanceTail s).params = s.params := rfl
@[simp] theorem advanceTail_slots (s : State) : (advanceTail s).slots = s.slots := rfl
@[simp] theorem advanceTail_head (s : State) : (advanceTail s).head = s.head := rfl
@[simp] theorem advanceTail_tail (s : State) :
    (advanceTail s).tail = nextIndex s.params.capacity s.tail := rfl
@[simp] theorem advanceTail_count (s : State) : (advanceTail s).count = s.count := rfl
@[simp] theorem advanceTail_drvState (s : State) : (advanceTail s).drvState = s.drvState := rfl
@[simp] theorem advanceTail_handle (s : State) : (advanceTail s).handle = s.handle := rfl
@[simp] theorem advanceTail_tPhase (s : State) : (advanceTail s).tPhase = s.tPhase := rfl
@[simp] theorem advanceTail_tFrame (s : State) : (advanceTail s).tFrame = s.tFrame := rfl
@[simp] theorem advanceTail_tArg (s : State) : (advanceTail s).tArg = s.tArg := rfl
@[simp] theorem advanceTail_iPhase (s : State) : (advanceTail s).iPhase = s.iPhase := rfl
@[simp] theorem advanceTail_iFrame (s : State) : (advanceTail s).iFrame = s.iFrame := rfl
@[simp] theorem advanceTail_iArg (s : State) : (advanceTail s).iArg = s.iArg := rfl
@[simp] theorem advanceTail_inputs (s : State) : (advanceTail s).inputs = s.inputs := rfl
@[simp] theorem advanceTail_env (s : State) : (advanceTail s).env = s.env := rfl
@[simp] theorem advanceTail_draws (s : State) : (advanceTail s).draws = s.draws := rfl
@[simp] theorem advanceTail_responses (s : State) : (advanceTail s).responses = s.responses := rfl
@[simp] theorem advanceTail_calls (s : State) : (advanceTail s).calls = s.calls := rfl

@[simp] theorem callCfgFilter_answer (h : Handle) (flt : Filter) (s : State) :
    (callCfgFilter h flt s).1 = (takeAnswer s.env.cfgFilter Config.freeAck s.draws).1 := rfl
@[simp] theorem callCfgFilter_params (h : Handle) (flt : Filter) (s : State) :
    ((callCfgFilter h flt s).2).params = s.params := rfl
@[simp] theorem callCfgFilter_slots (h : Handle) (flt : Filter) (s : State) :
    ((callCfgFilter h flt s).2).slots = s.slots := rfl
@[simp] theorem callCfgFilter_head (h : Handle) (flt : Filter) (s : State) :
    ((callCfgFilter h flt s).2).head = s.head := rfl
@[simp] theorem callCfgFilter_tail (h : Handle) (flt : Filter) (s : State) :
    ((callCfgFilter h flt s).2).tail = s.tail := rfl
@[simp] theorem callCfgFilter_count (h : Handle) (flt : Filter) (s : State) :
    ((callCfgFilter h flt s).2).count = s.count := rfl
@[simp] theorem callCfgFilter_drvState (h : Handle) (flt : Filter) (s : State) :
    ((callCfgFilter h flt s).2).drvState = s.drvState := rfl
@[simp] theorem callCfgFilter_handle (h : Handle) (flt : Filter) (s : State) :
    ((callCfgFilter h flt s).2).handle = s.handle := rfl
@[simp] theorem callCfgFilter_tPhase (h : Handle) (flt : Filter) (s : State) :
    ((callCfgFilter h flt s).2).tPhase = s.tPhase := rfl
@[simp] theorem callCfgFilter_tFrame (h : Handle) (flt : Filter) (s : State) :
    ((callCfgFilter h flt s).2).tFrame = s.tFrame := rfl
@[simp] theorem callCfgFilter_tArg (h : Handle) (flt : Filter) (s : State) :
    ((callCfgFilter h flt s).2).tArg = s.tArg := rfl
@[simp] theorem callCfgFilter_iPhase (h : Handle) (flt : Filter) (s : State) :
    ((callCfgFilter h flt s).2).iPhase = s.iPhase := rfl
@[simp] theorem callCfgFilter_iFrame (h : Handle) (flt : Filter) (s : State) :
    ((callCfgFilter h flt s).2).iFrame = s.iFrame := rfl
@[simp] theorem callCfgFilter_iArg (h : Handle) (flt : Filter) (s : State) :
    ((callCfgFilter h flt s).2).iArg = s.iArg := rfl
@[simp] theorem callCfgFilter_inputs (h : Handle) (flt : Filter) (s : State) :
    ((callCfgFilter h flt s).2).inputs = s.inputs := rfl
@[simp] theorem callCfgFilter_env (h : Handle) (flt : Filter) (s : State) :
    ((callCfgFilter h flt s).2).env = { s.env with cfgFilter := (takeAnswer s.env.cfgFilter Config.freeAck s.draws).2.1 } := rfl
@[simp] theorem callCfgFilter_draws (h : Handle) (flt : Filter) (s : State) :
    ((callCfgFilter h flt s).2).draws = (takeAnswer s.env.cfgFilter Config.freeAck s.draws).2.2 := rfl
@[simp] theorem callCfgFilter_responses (h : Handle) (flt : Filter) (s : State) :
    ((callCfgFilter h flt s).2).responses = s.responses := rfl
@[simp] theorem callCfgFilter_calls (h : Handle) (flt : Filter) (s : State) :
    ((callCfgFilter h flt s).2).calls = s.calls ++ [.cfgFilter h flt] := rfl

@[simp] theorem callStart_answer (h : Handle) (s : State) :
    (callStart h s).1 = (takeAnswer s.env.start Config.freeAck s.draws).1 := rfl
@[simp] theorem callStart_params (h : Handle) (s : State) :
    ((callStart h s).2).params = s.params := rfl
@[simp] theorem callStart_slots (h : Handle) (s : State) :
    ((callStart h s).2).slots = s.slots := rfl
@[simp] theorem callStart_head (h : Handle) (s : State) : ((callStart h s).2).head = s.head := rfl
@[simp] theorem callStart_tail (h : Handle) (s : State) : ((callStart h s).2).tail = s.tail := rfl
@[simp] theorem callStart_count (h : Handle) (s : State) :
    ((callStart h s).2).count = s.count := rfl
@[simp] theorem callStart_drvState (h : Handle) (s : State) :
    ((callStart h s).2).drvState = s.drvState := rfl
@[simp] theorem callStart_handle (h : Handle) (s : State) :
    ((callStart h s).2).handle = s.handle := rfl
@[simp] theorem callStart_tPhase (h : Handle) (s : State) :
    ((callStart h s).2).tPhase = s.tPhase := rfl
@[simp] theorem callStart_tFrame (h : Handle) (s : State) :
    ((callStart h s).2).tFrame = s.tFrame := rfl
@[simp] theorem callStart_tArg (h : Handle) (s : State) : ((callStart h s).2).tArg = s.tArg := rfl
@[simp] theorem callStart_iPhase (h : Handle) (s : State) :
    ((callStart h s).2).iPhase = s.iPhase := rfl
@[simp] theorem callStart_iFrame (h : Handle) (s : State) :
    ((callStart h s).2).iFrame = s.iFrame := rfl
@[simp] theorem callStart_iArg (h : Handle) (s : State) : ((callStart h s).2).iArg = s.iArg := rfl
@[simp] theorem callStart_inputs (h : Handle) (s : State) :
    ((callStart h s).2).inputs = s.inputs := rfl
@[simp] theorem callStart_env (h : Handle) (s : State) :
    ((callStart h s).2).env = { s.env with start := (takeAnswer s.env.start Config.freeAck s.draws).2.1 } := rfl
@[simp] theorem callStart_draws (h : Handle) (s : State) :
    ((callStart h s).2).draws = (takeAnswer s.env.start Config.freeAck s.draws).2.2 := rfl
@[simp] theorem callStart_responses (h : Handle) (s : State) :
    ((callStart h s).2).responses = s.responses := rfl
@[simp] theorem callStart_calls (h : Handle) (s : State) :
    ((callStart h s).2).calls = s.calls ++ [.start h] := rfl

@[simp] theorem callActNotify_answer (h : Handle) (cats : List Notification) (s : State) :
    (callActNotify h cats s).1 = (takeAnswer s.env.actNotify Config.freeAck s.draws).1 := rfl
@[simp] theorem callActNotify_params (h : Handle) (cats : List Notification) (s : State) :
    ((callActNotify h cats s).2).params = s.params := rfl
@[simp] theorem callActNotify_slots (h : Handle) (cats : List Notification) (s : State) :
    ((callActNotify h cats s).2).slots = s.slots := rfl
@[simp] theorem callActNotify_head (h : Handle) (cats : List Notification) (s : State) :
    ((callActNotify h cats s).2).head = s.head := rfl
@[simp] theorem callActNotify_tail (h : Handle) (cats : List Notification) (s : State) :
    ((callActNotify h cats s).2).tail = s.tail := rfl
@[simp] theorem callActNotify_count (h : Handle) (cats : List Notification) (s : State) :
    ((callActNotify h cats s).2).count = s.count := rfl
@[simp] theorem callActNotify_drvState (h : Handle) (cats : List Notification) (s : State) :
    ((callActNotify h cats s).2).drvState = s.drvState := rfl
@[simp] theorem callActNotify_handle (h : Handle) (cats : List Notification) (s : State) :
    ((callActNotify h cats s).2).handle = s.handle := rfl
@[simp] theorem callActNotify_tPhase (h : Handle) (cats : List Notification) (s : State) :
    ((callActNotify h cats s).2).tPhase = s.tPhase := rfl
@[simp] theorem callActNotify_tFrame (h : Handle) (cats : List Notification) (s : State) :
    ((callActNotify h cats s).2).tFrame = s.tFrame := rfl
@[simp] theorem callActNotify_tArg (h : Handle) (cats : List Notification) (s : State) :
    ((callActNotify h cats s).2).tArg = s.tArg := rfl
@[simp] theorem callActNotify_iPhase (h : Handle) (cats : List Notification) (s : State) :
    ((callActNotify h cats s).2).iPhase = s.iPhase := rfl
@[simp] theorem callActNotify_iFrame (h : Handle) (cats : List Notification) (s : State) :
    ((callActNotify h cats s).2).iFrame = s.iFrame := rfl
@[simp] theorem callActNotify_iArg (h : Handle) (cats : List Notification) (s : State) :
    ((callActNotify h cats s).2).iArg = s.iArg := rfl
@[simp] theorem callActNotify_inputs (h : Handle) (cats : List Notification) (s : State) :
    ((callActNotify h cats s).2).inputs = s.inputs := rfl
@[simp] theorem callActNotify_env (h : Handle) (cats : List Notification) (s : State) :
    ((callActNotify h cats s).2).env = { s.env with actNotify := (takeAnswer s.env.actNotify Config.freeAck s.draws).2.1 } := rfl
@[simp] theorem callActNotify_draws (h : Handle) (cats : List Notification) (s : State) :
    ((callActNotify h cats s).2).draws = (takeAnswer s.env.actNotify Config.freeAck s.draws).2.2 := rfl
@[simp] theorem callActNotify_responses (h : Handle) (cats : List Notification) (s : State) :
    ((callActNotify h cats s).2).responses = s.responses := rfl
@[simp] theorem callActNotify_calls (h : Handle) (cats : List Notification) (s : State) :
    ((callActNotify h cats s).2).calls = s.calls ++ [.actNotify h cats] := rfl

@[simp] theorem callAddTx_answer (h : Handle) (hdr : Header) (data : Payload) (s : State) :
    (callAddTx h hdr data s).1 = (takeAnswer s.env.addTx Config.freeAck s.draws).1 := rfl
@[simp] theorem callAddTx_params (h : Handle) (hdr : Header) (data : Payload) (s : State) :
    ((callAddTx h hdr data s).2).params = s.params := rfl
@[simp] theorem callAddTx_slots (h : Handle) (hdr : Header) (data : Payload) (s : State) :
    ((callAddTx h hdr data s).2).slots = s.slots := rfl
@[simp] theorem callAddTx_head (h : Handle) (hdr : Header) (data : Payload) (s : State) :
    ((callAddTx h hdr data s).2).head = s.head := rfl
@[simp] theorem callAddTx_tail (h : Handle) (hdr : Header) (data : Payload) (s : State) :
    ((callAddTx h hdr data s).2).tail = s.tail := rfl
@[simp] theorem callAddTx_count (h : Handle) (hdr : Header) (data : Payload) (s : State) :
    ((callAddTx h hdr data s).2).count = s.count := rfl
@[simp] theorem callAddTx_drvState (h : Handle) (hdr : Header) (data : Payload) (s : State) :
    ((callAddTx h hdr data s).2).drvState = s.drvState := rfl
@[simp] theorem callAddTx_handle (h : Handle) (hdr : Header) (data : Payload) (s : State) :
    ((callAddTx h hdr data s).2).handle = s.handle := rfl
@[simp] theorem callAddTx_tPhase (h : Handle) (hdr : Header) (data : Payload) (s : State) :
    ((callAddTx h hdr data s).2).tPhase = s.tPhase := rfl
@[simp] theorem callAddTx_tFrame (h : Handle) (hdr : Header) (data : Payload) (s : State) :
    ((callAddTx h hdr data s).2).tFrame = s.tFrame := rfl
@[simp] theorem callAddTx_tArg (h : Handle) (hdr : Header) (data : Payload) (s : State) :
    ((callAddTx h hdr data s).2).tArg = s.tArg := rfl
@[simp] theorem callAddTx_iPhase (h : Handle) (hdr : Header) (data : Payload) (s : State) :
    ((callAddTx h hdr data s).2).iPhase = s.iPhase := rfl
@[simp] theorem callAddTx_iFrame (h : Handle) (hdr : Header) (data : Payload) (s : State) :
    ((callAddTx h hdr data s).2).iFrame = s.iFrame := rfl
@[simp] theorem callAddTx_iArg (h : Handle) (hdr : Header) (data : Payload) (s : State) :
    ((callAddTx h hdr data s).2).iArg = s.iArg := rfl
@[simp] theorem callAddTx_inputs (h : Handle) (hdr : Header) (data : Payload) (s : State) :
    ((callAddTx h hdr data s).2).inputs = s.inputs := rfl
@[simp] theorem callAddTx_env (h : Handle) (hdr : Header) (data : Payload) (s : State) :
    ((callAddTx h hdr data s).2).env = { s.env with addTx := (takeAnswer s.env.addTx Config.freeAck s.draws).2.1 } := rfl
@[simp] theorem callAddTx_draws (h : Handle) (hdr : Header) (data : Payload) (s : State) :
    ((callAddTx h hdr data s).2).draws = (takeAnswer s.env.addTx Config.freeAck s.draws).2.2 := rfl
@[simp] theorem callAddTx_responses (h : Handle) (hdr : Header) (data : Payload) (s : State) :
    ((callAddTx h hdr data s).2).responses = s.responses := rfl
@[simp] theorem callAddTx_calls (h : Handle) (hdr : Header) (data : Payload) (s : State) :
    ((callAddTx h hdr data s).2).calls = s.calls ++ [.addTx h hdr data] := rfl

@[simp] theorem callGetRx_answer (h : Handle) (s : State) :
    (callGetRx h s).1 = (takeAnswer s.env.getRx Config.freeRx s.draws).1 := rfl
@[simp] theorem callGetRx_params (h : Handle) (s : State) :
    ((callGetRx h s).2).params = s.params := rfl
@[simp] theorem callGetRx_slots (h : Handle) (s : State) :
    ((callGetRx h s).2).slots = s.slots := rfl
@[simp] theorem callGetRx_head (h : Handle) (s : State) : ((callGetRx h s).2).head = s.head := rfl
@[simp] theorem callGetRx_tail (h : Handle) (s : State) : ((callGetRx h s).2).tail = s.tail := rfl
@[simp] theorem callGetRx_count (h : Handle) (s : State) :
    ((callGetRx h s).2).count = s.count := rfl
@[simp] theorem callGetRx_drvState (h : Handle) (s : State) :
    ((callGetRx h s).2).drvState = s.drvState := rfl
@[simp] theorem callGetRx_handle (h : Handle) (s : State) :
    ((callGetRx h s).2).handle = s.handle := rfl
@[simp] theorem callGetRx_tPhase (h : Handle) (s : State) :
    ((callGetRx h s).2).tPhase = s.tPhase := rfl
@[simp] theorem callGetRx_tFrame (h : Handle) (s : State) :
    ((callGetRx h s).2).tFrame = s.tFrame := rfl
@[simp] theorem callGetRx_tArg (h : Handle) (s : State) : ((callGetRx h s).2).tArg = s.tArg := rfl
@[simp] theorem callGetRx_iPhase (h : Handle) (s : State) :
    ((callGetRx h s).2).iPhase = s.iPhase := rfl
@[simp] theorem callGetRx_iFrame (h : Handle) (s : State) :
    ((callGetRx h s).2).iFrame = s.iFrame := rfl
@[simp] theorem callGetRx_iArg (h : Handle) (s : State) : ((callGetRx h s).2).iArg = s.iArg := rfl
@[simp] theorem callGetRx_inputs (h : Handle) (s : State) :
    ((callGetRx h s).2).inputs = s.inputs := rfl
@[simp] theorem callGetRx_env (h : Handle) (s : State) :
    ((callGetRx h s).2).env = { s.env with getRx := (takeAnswer s.env.getRx Config.freeRx s.draws).2.1 } := rfl
@[simp] theorem callGetRx_draws (h : Handle) (s : State) :
    ((callGetRx h s).2).draws = (takeAnswer s.env.getRx Config.freeRx s.draws).2.2 := rfl
@[simp] theorem callGetRx_responses (h : Handle) (s : State) :
    ((callGetRx h s).2).responses = s.responses := rfl
@[simp] theorem callGetRx_calls (h : Handle) (s : State) :
    ((callGetRx h s).2).calls = s.calls ++ [.getRx h] := rfl

/-- An answer that stands first is the one taken, and no free value is drawn. -/
@[simp] theorem takeAnswer_cons {α : Type} (a : α) (rest : List α) (free : Nat → α) (n : Nat) :
    takeAnswer (a :: rest) free n = (a, rest, n) := rfl

/-- With no answer placed, the answer is the free value of the draw counter. -/
@[simp] theorem takeAnswer_nil {α : Type} (free : Nat → α) (n : Nat) :
    takeAnswer [] free n = (free n, [], n + 1) := rfl

end Sys2Proof.Machine
end

