-- ==== Sys2Proof/Laws/Ops.lean ====
section
/-! SUPPORT. One lemma per shared operation that says everything it can do when it goes on, and when it
goes on at all. Later proofs cite these and do not unfold the operations. -/

namespace Sys2Proof.Machine

@[simp] theorem andThen_next {α β : Type} (a : α) (k : α → Host.Outcome β Fault Refusal) :
    andThen (.next a) k = k a := rfl

@[simp] theorem andThen_fault {α β : Type} (e : Fault) (k : α → Host.Outcome β Fault Refusal) :
    andThen (.fault e) k = .fault e := rfl

@[simp] theorem andThen_refused {α β : Type} (e : Refusal) (k : α → Host.Outcome β Fault Refusal) :
    andThen (.refused e) k = .refused e := rfl

theorem andThen_eq_next {α β : Type} {r : Host.Outcome α Fault Refusal}
    {k : α → Host.Outcome β Fault Refusal} {b : β} :
    andThen r k = .next b ↔ ∃ a, r = .next a ∧ k a = .next b := by
  cases r <;> simp

theorem andThen_eq_fault {α β : Type} {r : Host.Outcome α Fault Refusal}
    {k : α → Host.Outcome β Fault Refusal} {e : Fault} :
    andThen r k = .fault e ↔ r = .fault e ∨ ∃ a, r = .next a ∧ k a = .fault e := by
  cases r <;> simp

/-- MemRead goes on exactly with the frame a slot of the slot space holds. -/
theorem memRead_eq_next {i : Nat} {s : State} {f : Frame} :
    memRead i s = .next f ↔ i < s.params.capacity ∧ s.slots.read i = some f := by
  unfold memRead
  split
  · split <;> simp_all
  · simp_all

/-- MemRead faults exactly outside the slot space or on a slot never written. -/
theorem memRead_eq_fault {i : Nat} {s : State} {e : Fault} :
    memRead i s = .fault e ↔
      (i < s.params.capacity ∧ s.slots.read i = none ∧ e = .unwrittenSlot i) ∨
        (s.params.capacity ≤ i ∧ e = .slotOutOfRange i) := by
  unfold memRead
  by_cases hi : i < s.params.capacity
  · cases hr : s.slots.read i <;> simp [hi, Nat.not_le.2 hi, eq_comm]
  · simp [hi, Nat.not_lt.1 hi, eq_comm]

/-- MemWrite changes `slots` and nothing else, inside the slot space. -/
theorem memWrite_eq_next {i : Nat} {f : Frame} {s t : State} :
    memWrite i f s = .next t ↔
      i < s.params.capacity ∧ t = { s with slots := s.slots.write i f } := by
  unfold memWrite
  split <;> simp_all [eq_comm]

theorem memWrite_eq_fault {i : Nat} {f : Frame} {s : State} {e : Fault} :
    memWrite i f s = .fault e ↔ s.params.capacity ≤ i ∧ e = .slotOutOfRange i := by
  unfold memWrite
  split <;> simp_all [Nat.not_le.2, eq_comm]

/-- W4's update: one more, below the capacity, nothing else changed. -/
theorem countUp_eq_next {s t : State} :
    countUp s = .next t ↔ s.count < s.params.capacity ∧ t = { s with count := s.count + 1 } := by
  unfold countUp
  split <;> simp_all [eq_comm]

theorem countUp_eq_fault {s : State} {e : Fault} :
    countUp s = .fault e ↔ s.params.capacity ≤ s.count ∧ e = .countOverflow := by
  unfold countUp
  split <;> simp_all [Nat.not_le.2, eq_comm]

/-- P4's update: one less, from at least one, nothing else changed. -/
theorem countDown_eq_next {s t : State} :
    countDown s = .next t ↔ 1 ≤ s.count ∧ t = { s with count := s.count - 1 } := by
  unfold countDown
  split <;> simp_all [eq_comm]

theorem countDown_eq_fault {s : State} {e : Fault} :
    countDown s = .fault e ↔ s.count = 0 ∧ e = .countUnderflow := by
  unfold countDown
  by_cases h : 1 ≤ s.count
  · simp [h, show s.count ≠ 0 by omega]
  · simp [show s.count = 0 by omega, eq_comm]

@[simp] theorem pushReturn_none (ok : Bool) (s : State) : pushReturn none ok s = s := rfl

@[simp] theorem pushReturn_some (out : Port) (ok : Bool) (s : State) :
    pushReturn (some out) ok s = respond out (respBool ok) s := rfl

/-- What PUSH's return leaves alone: everything but the responses. -/
theorem pushReturn_eq (out : Option Port) (ok : Bool) (s : State) :
    pushReturn out ok s =
      { s with responses := s.responses ++ out.toList.map fun port => (port, respBool ok) } := by
  cases out <;> simp [respond]

/-- A whole PUSH that goes on either found the queue full and changed nothing, or wrote `head`'s slot,
advanced `head` and counted one more (R80). -/
theorem pushWhole_eq_next {out : Option Port} {f : Frame} {s t : State} :
    pushWhole out f s = .next t ↔
      (s.count = s.params.capacity ∧ t = pushReturn out false s) ∨
      (s.count < s.params.capacity ∧ s.head < s.params.capacity ∧
        t = pushReturn out true
          { s with
            slots := s.slots.write s.head f
            head := nextIndex s.params.capacity s.head
            count := s.count + 1 }) := by
  unfold pushWhole queueFull
  split
  · next h =>
    have hc : s.count = s.params.capacity := by simpa using h
    simp [hc, eq_comm (a := t)]
  · next h =>
    simp only [andThen_eq_next, memWrite_eq_next, countUp_eq_next]
    constructor
    · rintro ⟨_, ⟨hh, rfl⟩, _, ⟨hc, rfl⟩, ht⟩
      simp only [Host.Outcome.next.injEq] at ht
      exact .inr ⟨hc, hh, ht.symm⟩
    · rintro (⟨hc, -⟩ | ⟨hc, hh, rfl⟩)
      · simp [hc] at h
      · exact ⟨_, ⟨hh, rfl⟩, _, ⟨hc, rfl⟩, rfl⟩

/-- A whole PUSH faults only from a `head` or a `count` out of range. -/
theorem pushWhole_eq_fault {out : Option Port} {f : Frame} {s : State} {e : Fault}
    (h : pushWhole out f s = .fault e) : s.params.capacity ≤ s.head ∨ s.params.capacity < s.count := by
  unfold pushWhole queueFull at h
  split at h
  · cases h
  · next hf =>
    simp only [andThen_eq_fault, memWrite_eq_fault, memWrite_eq_next, countUp_eq_fault] at h
    rcases h with ⟨h, -⟩ | ⟨_, ⟨-, rfl⟩, h⟩
    · exact .inl h
    · rcases h with ⟨h, -⟩ | ⟨_, -, h⟩
      · have : s.count ≠ s.params.capacity := by simpa using hf
        have : s.params.capacity ≤ s.count := h
        omega
      · cases h

/-- A whole PUSH is never refused. -/
theorem pushWhole_ne_refused {out : Option Port} {f : Frame} {s : State} {r : Refusal} :
    pushWhole out f s ≠ .refused r := by
  unfold pushWhole memWrite countUp
  split
  · simp
  · split
    · simp only [andThen_next]
      split <;> simp
    · simp

/-- The micro-steps W1 to W4 of a PUSH in progress, one case each (R80, R150 d). -/
theorem pushResume_eq_next {out : Option Port} {s t : State} :
    pushResume out s = .next t ↔
      (s.iPhase = .idle ∧ t = s) ∨
      (s.iPhase = .w1 ∧ t = pushW1 out s.iFrame s) ∨
      (s.iPhase = .w2 ∧ s.head < s.params.capacity ∧
        t = { s with slots := s.slots.write s.head s.iFrame, iPhase := .w3 }) ∨
      (s.iPhase = .w3 ∧ t = { s with head := nextIndex s.params.capacity s.head, iPhase := .w4 }) ∨
      (s.iPhase = .w4 ∧ s.count < s.params.capacity ∧
        t = pushReturn out true { s with count := s.count + 1, iPhase := .idle }) := by
  unfold pushResume
  cases h : s.iPhase
  · simp [eq_comm (a := t)]
  · simp [eq_comm (a := t)]
  · simp only [andThen_eq_next, memWrite_eq_next, Host.Outcome.next.injEq, reduceCtorEq, false_and,
      false_or, true_and, or_false]
    constructor
    · rintro ⟨_, ⟨hh, rfl⟩, rfl⟩
      exact ⟨hh, rfl⟩
    · rintro ⟨hh, rfl⟩
      exact ⟨_, ⟨hh, rfl⟩, rfl⟩
  · simp [eq_comm (a := t), advanceHead]
  · simp only [andThen_eq_next, countUp_eq_next, Host.Outcome.next.injEq, reduceCtorEq, false_and,
      false_or, true_and]
    constructor
    · rintro ⟨_, ⟨hh, rfl⟩, rfl⟩
      exact ⟨hh, rfl⟩
    · rintro ⟨hh, rfl⟩
      exact ⟨_, ⟨hh, rfl⟩, rfl⟩

/-- The micro-steps P2 to P4 of a POP in progress, one case each (R81). -/
theorem popResume_eq_next {out : Port} {s t : State} :
    popResume out s = .next t ↔
      (s.tPhase = .p2 ∧ s.tail < s.params.capacity ∧
        ∃ f, s.slots.read s.tail = some f ∧ t = { s with tFrame := f, tPhase := .p3 }) ∨
      (s.tPhase = .p3 ∧ t = { s with tail := nextIndex s.params.capacity s.tail, tPhase := .p4 }) ∨
      (s.tPhase = .p4 ∧ 1 ≤ s.count ∧
        t = respond out (respFrame (some s.tFrame))
          { s with count := s.count - 1, tPhase := .idle }) := by
  unfold popResume
  cases h : s.tPhase
  case p2 =>
    simp only [andThen_eq_next, memRead_eq_next, Host.Outcome.next.injEq, reduceCtorEq, false_and,
      true_and, or_false]
    constructor
    · rintro ⟨f, ⟨hh, hf⟩, rfl⟩
      exact ⟨hh, f, hf, rfl⟩
    · rintro ⟨hh, f, hf, rfl⟩
      exact ⟨f, ⟨hh, hf⟩, rfl⟩
  case p3 => simp [eq_comm (a := t), advanceTail]
  case p4 =>
    simp only [andThen_eq_next, countDown_eq_next, Host.Outcome.next.injEq, reduceCtorEq, false_and,
      false_or, true_and]
    constructor
    · rintro ⟨_, ⟨hh, rfl⟩, rfl⟩
      exact ⟨hh, rfl⟩
    · rintro ⟨hh, rfl⟩
      exact ⟨_, ⟨hh, rfl⟩, rfl⟩
  all_goals simp

/-- POP's P1: `None` from an empty queue, else on to P2 (R81). -/
theorem popP1_cases (out : Port) (s : State) :
    (s.count = 0 ∧ popP1 out s = respond out (respFrame none) s) ∨
      (s.count ≠ 0 ∧ popP1 out s = { s with tPhase := .p2 }) := by
  unfold popP1 queueEmpty
  split <;> simp_all

/-- W1: full and over, or on to W2 (R80). -/
theorem pushW1_cases (out : Option Port) (f : Frame) (s : State) :
    (s.count = s.params.capacity ∧ pushW1 out f s = pushReturn out false { s with iPhase := .idle }) ∨
      (s.count ≠ s.params.capacity ∧ pushW1 out f s = { s with iFrame := f, iPhase := .w2 }) := by
  unfold pushW1 queueFull
  split <;> simp_all

end Sys2Proof.Machine
end

