-- ==== Sys2Proof/Laws/Exec.lean ====
section
/-! SUPPORT. One lemma per meaning: every way it can go on, guards included. Proofs about a step cite these
and do not unfold the meanings. -/

namespace Sys2Proof.Machine

/-- POP (R81): empty at P1, P1, P2, P3, P4. -/
theorem execPop_eq_next {s t : State} :
    execPop s = .next t ↔
      (s.tPhase = .idle ∧ s.count = 0 ∧ t = respond .r (respFrame none) s) ∨
      (s.tPhase = .idle ∧ s.count ≠ 0 ∧ t = { s with tPhase := .p2 }) ∨
      popResume .r s = .next t := by
  unfold execPop
  split
  · next h =>
    have hr : popResume .r s ≠ .next t := by simp [popResume, h]
    rcases popP1_cases .r s with ⟨hc, he⟩ | ⟨hc, he⟩ <;> simp [h, hc, he, hr, eq_comm (a := t)]
  · next h => simp [h]

/-- SIZE (R82): S1. -/
theorem execSize_eq_next {s t : State} :
    execSize s = .next t ↔ s.tPhase = .idle ∧ t = respond .r (respCount s.count) s := by
  unfold execSize
  split <;> simp_all [eq_comm (a := t)]

/-- RECV (R92): not ready, empty at P1, P1, P2, P3, P4. -/
theorem execRecv_eq_next {s t : State} :
    execRecv s = .next t ↔
      (s.tPhase = .idle ∧ (s.drvState = .ready → s.count = 0) ∧
        t = respond .t (respFrame none) s) ∨
      (s.tPhase = .idle ∧ s.drvState = .ready ∧ s.count ≠ 0 ∧ t = { s with tPhase := .p2 }) ∨
      popResume .t s = .next t := by
  unfold execRecv driverReady
  split
  · next h =>
    have hr : popResume .t s ≠ .next t := by simp [popResume, h]
    cases hd : s.drvState
    · simp [h, hr, eq_comm (a := t)]
    · rcases popP1_cases .t s with ⟨hc, he⟩ | ⟨hc, he⟩ <;> simp [h, hd, hc, he, hr, eq_comm (a := t)]
  · next h => simp [h]

/-- INIT (R90): I1, I2, I3. -/
theorem execInit_eq_next {h : Handle} {s t : State} :
    execInit h s = .next t ↔
      (s.tPhase = .idle ∧ s.drvState = .uninitialized ∧
        let r := callCfgFilter h acceptAll { s with tArg := h }
        t = if r.1 then { r.2 with tPhase := .i2 } else respond .t (respBool false) r.2) ∨
      (s.tPhase = .i2 ∧ t = initI2 s) ∨
      (s.tPhase = .i3 ∧ t = initI3 s) := by
  unfold execInit initI1 driverReady
  cases hp : s.tPhase <;> cases hd : s.drvState <;> simp [eq_comm (a := t)]

/-- I2 (R90). -/
theorem initI2_eq (s : State) :
    initI2 s =
      if (callStart s.tArg s).1 then { (callStart s.tArg s).2 with tPhase := .i3 }
      else respond .t (respBool false) { (callStart s.tArg s).2 with tPhase := .idle } := rfl

/-- I3 (R90). -/
theorem initI3_eq (s : State) :
    initI3 s =
      let r := callActNotify s.tArg allNotifications s
      if r.1 then
        respond .t (respBool true)
          { r.2 with handle := some s.tArg, drvState := .ready, tPhase := .idle }
      else respond .t (respBool false) { r.2 with tPhase := .idle } := by
  unfold initI3
  generalize callActNotify s.tArg allNotifications s = r
  obtain ⟨ok, u⟩ := r
  cases ok <;> rfl

/-- SEND (R91): rejected at T1, T1, T2. -/
theorem execSend_eq_next {f : Frame} {s t : State} :
    execSend f s = .next t ↔
      (s.tPhase = .idle ∧ ¬(s.drvState = .ready ∧ validFrame f = true) ∧
        t = respond .t (respBool false) s) ∨
      (s.tPhase = .idle ∧ s.drvState = .ready ∧ validFrame f = true ∧
        t = { s with tFrame := f, tPhase := .t2 }) ∨
      (s.tPhase = .t2 ∧ t = sendT2 s) := by
  unfold execSend sendT1 driverReady
  cases hp : s.tPhase <;> cases hd : s.drvState <;> cases hv : validFrame f <;>
    simp [eq_comm (a := t)]

/-- PUSH (R80): whole, or W1 with PARALLEL_DOMAINS = true, or the next micro-step. -/
theorem execPush_eq_next {f : Frame} {s t : State} :
    execPush f s = .next t ↔
      (s.iPhase = .idle ∧ s.params.parallelDomains = false ∧ pushWhole (some .w) f s = .next t) ∨
      (s.iPhase = .idle ∧ s.params.parallelDomains = true ∧ t = pushW1 (some .w) f s) ∨
      (s.iPhase ≠ .idle ∧ pushResume (some .w) s = .next t) := by
  unfold execPush
  cases hp : s.iPhase <;> cases hd : s.params.parallelDomains <;> simp [eq_comm (a := t)]

/-- RXIRQ (R100): ignored, fetch failure, a frame for PUSH, or the next micro-step of that PUSH. -/
theorem execRxirq_eq_next {src : Handle} {s t : State} :
    execRxirq src s = .next t ↔
      (s.iPhase = .idle ∧ ¬(s.drvState = .ready ∧ s.handle = some src) ∧ t = s) ∨
      (s.iPhase = .idle ∧ s.drvState = .ready ∧ s.handle = some src ∧
        rxDeliver src (callGetRx src s).1 (callGetRx src s).2 = .next t) ∨
      (s.iPhase ≠ .idle ∧ pushResume none s = .next t) := by
  unfold execRxirq rxFetch driverReady handleMatches
  cases hp : s.iPhase
  case idle =>
    by_cases hr : s.drvState = .ready ∧ s.handle = some src
    · simp [hr.1, hr.2]
    · have : (s.drvState == .ready && s.handle == some src) = false := by
        rw [Bool.and_eq_false_iff]
        by_cases hd : s.drvState = .ready
        · exact .inr (by simpa using fun h => hr ⟨hd, h⟩)
        · exact .inl (by simpa using hd)
      simp only [this, Bool.false_eq_true, if_false, Host.Outcome.next.injEq,
        true_and, hr, not_false_eq_true, ne_eq, not_true_eq_false, false_and, or_false]
      constructor
      · rintro rfl
        exact .inl rfl
      · rintro (rfl | ⟨hd, hh, -⟩)
        · rfl
        · exact absurd ⟨hd, hh⟩ hr
  all_goals simp

/-- What RXIRQ makes of the answer of `Env.GetRx` (R100, R103). -/
theorem rxDeliver_eq_next {src : Handle} {r : Option RxMessage} {s t : State} :
    rxDeliver src r s = .next t ↔
      (r = none ∧ t = s) ∨
      ∃ m, r = some m ∧ rxDlcBad m.hdr = false ∧
        ((s.params.parallelDomains = false ∧ pushWhole none (translateRx m) s = .next t) ∨
          (s.params.parallelDomains = true ∧
            t = { s with iFrame := translateRx m, iArg := src, iPhase := .w1 })) := by
  unfold rxDeliver
  cases r with
  | none => simp [eq_comm (a := t)]
  | some m =>
    cases hb : rxDlcBad m.hdr <;> cases hd : s.params.parallelDomains <;>
      simp [hb, eq_comm (a := t)]

end Sys2Proof.Machine
end

