-- ==== Sys2Proof/Laws/PerInstr.lean ====
section
/-! SUPPORT. Facts about every operation as syntax, one lemma per constructor (LAWS.json). -/

namespace Sys2Proof.Laws.DomainBit

/-- Bit 3 of the command word is 1 exactly for the operations of the interrupt domain (30_encoding R64). -/
def Statement (i : Instr) : Prop := (encode i).getLsbD 3 = true ↔ i.domain = .interrupt

/-- The domain bit is bit 3 of the opcode. -/
theorem of_opcode (i : Instr) (h : i.opcode.getLsbD 3 = true ↔ i.domain = .interrupt) :
    Statement i := by
  unfold Statement encode
  rw [BitVec.getLsbD_append]
  simpa using h

theorem pop : Statement .pop := of_opcode _ (by decide)

theorem size : Statement .size := of_opcode _ (by decide)

theorem recv : Statement .recv := of_opcode _ (by decide)

theorem init (h : Handle) : Statement (.init h) :=
  of_opcode _ (by simp [Instr.opcode, Instr.domain])

theorem send (f : Frame) : Statement (.send f) :=
  of_opcode _ (by simp [Instr.opcode, Instr.domain])

theorem push (f : Frame) : Statement (.push f) :=
  of_opcode _ (by simp [Instr.opcode, Instr.domain])

theorem rxirq (src : Handle) : Statement (.rxirq src) :=
  of_opcode _ (by simp [Instr.opcode, Instr.domain])

theorem errirq (src : Handle) : Statement (.errirq src) :=
  of_opcode _ (by simp [Instr.opcode, Instr.domain])

theorem boffirq (src : Handle) : Statement (.boffirq src) :=
  of_opcode _ (by simp [Instr.opcode, Instr.domain])

end Sys2Proof.Laws.DomainBit
end

