-- ==== Sys2Proof/Laws/Queue.lean ====
section
/-! SUPPORT. Index arithmetic modulo the capacity (40_queue_ops R85 a), which the queue invariant rests
on (10_state R18). -/

namespace Sys2Proof.Machine

theorem nextIndex_lt {c : Nat} (hc : 1 ≤ c) (x : Nat) : nextIndex c x < c :=
  Nat.mod_lt _ (by omega)

theorem prevIndex_lt {c : Nat} (hc : 1 ≤ c) (x : Nat) : prevIndex c x < c :=
  Nat.mod_lt _ (by omega)

/-- R85 a as a compare-and-reset, for an index in range. -/
theorem nextIndex_eq {c x : Nat} (hx : x < c) :
    nextIndex c x = if x + 1 < c then x + 1 else 0 := by
  unfold nextIndex
  split
  · next h => exact Nat.mod_eq_of_lt h
  · next h =>
    rw [show x + 1 = c by omega]
    exact Nat.mod_self c

theorem prevIndex_eq {c x : Nat} (hx : x < c) :
    prevIndex c x = if x = 0 then c - 1 else x - 1 := by
  unfold prevIndex
  split
  · next h =>
    rw [h, Nat.zero_add]
    exact Nat.mod_eq_of_lt (by omega)
  · next h =>
    rw [show x + c - 1 = (x - 1) + c by omega, Nat.add_mod_right]
    exact Nat.mod_eq_of_lt (by omega)

@[simp] theorem prevIndex_nextIndex {c x : Nat} (hx : x < c) :
    prevIndex c (nextIndex c x) = x := by
  rw [prevIndex_eq (nextIndex_lt (by omega) x), nextIndex_eq hx]
  by_cases h : x + 1 < c
  · simp [h]
  · simp [h]
    omega

/-- The `k`-th slot from an index in range, without the modulus. -/
theorem slot_eq {c x k : Nat} (hx : x < c) (hk : k < c) :
    (x + k) % c = if x + k < c then x + k else x + k - c := by
  split
  · next h => exact Nat.mod_eq_of_lt h
  · next h =>
    rw [Nat.mod_eq_sub_mod (by omega)]
    exact Nat.mod_eq_of_lt (by omega)

/-- Starting one slot further on shifts the numbering by one. -/
theorem slot_nextIndex {c : Nat} (x k : Nat) :
    (nextIndex c x + k) % c = (x + (k + 1)) % c := by
  unfold nextIndex
  rw [Nat.mod_add_mod]
  congr 1
  omega

/-- Fewer than `c` slots on from an index in range is another slot. -/
theorem slot_ne {c x k : Nat} (hx : x < c) (h1 : 1 ≤ k) (hk : k < c) : (x + k) % c ≠ x := by
  rw [slot_eq hx hk]
  split_ifs <;> omega

/-- Different offsets below `c` are different slots. -/
theorem slot_inj {c x j k : Nat} (hx : x < c) (hj : j < c) (hk : k < c)
    (h : (x + j) % c = (x + k) % c) : j = k := by
  rw [slot_eq hx hj, slot_eq hx hk] at h
  split_ifs at h <;> omega

theorem contents_length (s : State) : (contents s).length = s.count := by
  simp [contents]

@[simp] theorem popLag_of_idle {s : State} (h : s.tPhase = .idle) : popLag s = 0 := by
  simp [popLag, h]

@[simp] theorem pushLag_of_idle {s : State} (h : s.iPhase = .idle) : pushLag s = 0 := by
  simp [pushLag, h]

theorem oldest_of_ne_p4 {s : State} (h : s.tPhase ≠ .p4) : oldest s = s.tail := by
  simp [oldest, h]

@[simp] theorem runSteps_zero (s : State) : runSteps 0 s = .next s := rfl

/-- One step, then the others; a fault or a refusal ends the run. -/
theorem runSteps_succ (k : Nat) (s : State) :
    runSteps (k + 1) s = andThen (step s) fun t => runSteps k t := rfl

/-- A run of any core begins with its step. -/
theorem core_run_succ (M : Host.Core) (k : Nat) (s : M.State) :
    (∀ t, M.step s = .next t → M.run (k + 1) s = M.run k t) ∧
    (∀ e, M.step s = .fault e → M.run (k + 1) s = .fault e) ∧
    (∀ r, M.step s = .refused r → M.run (k + 1) s = .refused r) := by
  refine ⟨fun t h => ?_, fun e h => ?_, fun r h => ?_⟩ <;> simp [Host.Core.run, h]

/-- The run is the host's. -/
theorem core_run_eq_runSteps (k : Nat) (s : State) : Sys2Proof.core.run k s = runSteps k s := by
  induction k generalizing s with
  | zero => rfl
  | succ k ih =>
    have hc := core_run_succ Sys2Proof.core k s
    rw [runSteps_succ]
    cases hs : step s with
    | next t => exact (hc.1 t hs).trans (ih t)
    | fault e => exact hc.2.1 e hs
    | refused r => exact hc.2.2 r hs

/-- The first step of a run that goes on. -/
theorem runSteps_of_step {s t : State} (k : Nat) (h : step s = .next t) :
    runSteps (k + 1) s = runSteps k t := by
  rw [runSteps_succ, h, andThen_next]

end Sys2Proof.Machine
end

