-- ==== Sys2Proof/Laws/Step.lean ====
section
/-! SUPPORT. What a step can do: which micro-step `nextMove` chooses, and the outcome of `step` in terms
of it. -/

namespace Sys2Proof.Machine

/-- A command is accepted exactly when none of the spec's refusals applies (R66, R145, R27). -/
theorem accept_eq_ok {agent : Domain} {port : Port} {cw : CmdWord} {s : State} {i : Instr} :
    accept agent port cw s = .ok i ↔
      decode s.params.handleW cw = .ok i ∧ i.port = port ∧ i.level = s.params.level ∧
        i.domain = agent ∧ (i.domain = .task → s.tPhase = .idle) := by
  unfold accept
  cases hd : decode s.params.handleW cw with
  | error e => simp
  | ok j =>
    simp only [Except.ok.injEq]
    split
    · next h =>
      constructor
      · intro h'
        cases h'
      · rintro ⟨rfl, hp, hl, -⟩
        exact absurd h (by simp [hp, hl])
    · next h =>
      split
      · next h2 =>
        constructor
        · intro h'
          cases h'
        · rintro ⟨rfl, -, -, ha, -⟩
          exact absurd ha h2
      · next h2 =>
        split
        · next h3 =>
          constructor
          · intro h'
            cases h'
          · rintro ⟨rfl, -, -, -, hi⟩
            exact absurd (hi h3.1) h3.2
        · next h3 =>
          simp only [Except.ok.injEq]
          constructor
          · rintro rfl
            simp only [ne_eq, not_or, not_not, not_and] at h h2 h3
            exact ⟨rfl, h.1, h.2, h2, h3⟩
          · exact fun h' => h'.1

/-- The three ways a step can run an operation: a command just accepted, or the next micro-step of the
operation one domain has in progress. -/
theorem nextMove_run {s : State} {i : Instr} {inputs : List Input} (h : nextMove s = .run i inputs) :
    (∃ agent port cw, s.inputs = .command agent port cw :: inputs ∧
      accept agent port cw s = .ok i ∧ (i.domain = .interrupt → s.iPhase = .idle)) ∨
    interruptInProgress s = some i ∨ taskInProgress s = some i := by
  unfold nextMove at h
  split at h
  · next agent port cw rest hin =>
    unfold commandMove at h
    split at h
    · cases h
    · next j hj =>
      split at h
      · next k hk => cases h; exact .inr (.inl hk)
      · next x y hxy =>
        cases h
        refine .inl ⟨agent, port, cw, hin, hj, fun hi => ?_⟩
        cases hp : interruptInProgress s with
        | some k => exact absurd hp (hxy k hi)
        | none =>
          unfold interruptInProgress at hp
          split at hp
          · assumption
          · cases hp
  · unfold resumeMove at h
    split at h
    · next k hk => cases h; exact .inr (.inr hk)
    · cases h
  · unfold resumeMove at h
    split at h
    · next k hk => cases h; exact .inr (.inl hk)
    · cases h
  · split at h
    · next k hk => cases h; exact .inr (.inl hk)
    · unfold resumeMove at h
      split at h
      · next k hk => cases h; exact .inr (.inr hk)
      · cases h

/-- A step that goes on ran a micro-step of an operation, or had nothing to run. -/
theorem step_eq_next {s t : State} :
    step s = .next t ↔
      (∃ i inputs, nextMove s = .run i inputs ∧ exec i { s with inputs := inputs } = .next t) ∨
      ∃ inputs, nextMove s = .rest inputs ∧ t = { s with inputs := inputs } := by
  unfold step
  cases h : nextMove s <;> simp [eq_comm (a := t)]

/-- A step that faults ran an operation that faulted. -/
theorem step_eq_fault {s : State} {e : Fault} :
    step s = .fault e ↔
      ∃ i inputs, nextMove s = .run i inputs ∧ exec i { s with inputs := inputs } = .fault e := by
  unfold step
  cases h : nextMove s <;> simp

/-- The operation in progress in the task domain belongs to it, and its phase is its own. -/
theorem taskInProgress_eq_some {s : State} {i : Instr} (h : taskInProgress s = some i) :
    s.tPhase ≠ .idle ∧ i.domain = .task := by
  unfold taskInProgress at h
  cases hp : s.tPhase <;> simp only [hp, Option.some.injEq, reduceCtorEq] at h <;>
    subst h <;> refine ⟨by simp, ?_⟩ <;> first | rfl | (split <;> rfl)

/-- The operation in progress in the interrupt domain belongs to it. -/
theorem interruptInProgress_eq_some {s : State} {i : Instr} (h : interruptInProgress s = some i) :
    s.iPhase ≠ .idle ∧ i.domain = .interrupt := by
  unfold interruptInProgress at h
  split at h
  · cases h
  · next hp =>
    cases h
    exact ⟨hp, by split <;> rfl⟩

end Sys2Proof.Machine
end

