-- ==== Sys2Proof/Tests/Slice0.lean ====
section
/-! SUPPORT. Smoke tests of well-formedness, decode tests on the words of 95_test_vectors (E1 to E21),
one-step tests on its worked vectors (Q, I, T, V, X), and a witness for the hypotheses of every
obligation that has some. Expected values are the spec's, from the vector the name or comment gives. -/

namespace Sys2Proof.Tests

open Sys2Proof.Machine

/-- The outcome is a next state with property `p`. -/
def goesTo (o : Host.Outcome State Fault Refusal) (p : State → Bool) : Bool :=
  match o with
  | .next t => p t
  | .fault _ => false
  | .refused _ => false

/-- The outcome is this refusal. -/
def refusesWith (o : Host.Outcome State Fault Refusal) (r : Refusal) : Bool :=
  match o with
  | .next _ => false
  | .fault _ => false
  | .refused r' => decide (r' = r)

/-- The invariant, clause by clause. -/
def good (s : State) : Bool :=
  s.params.wf && decide (QueueInv s) && decide (PhaseInv s) && decide (DriverInv s) &&
    decide (LevelInv s)

theorem inv_of_good {s : State} (h : good s = true) : Machine.Inv s := by
  unfold good at h
  simp only [Bool.and_eq_true, decide_eq_true_eq] at h
  exact ⟨h.1.1.1.1, h.1.1.1.2, h.1.1.2, h.1.2, h.2⟩

/-! ### States the tests start from -/

/-- The vectors' handles. -/
def hndl : Handle := 0x40006400

def hndl2 : Handle := 0x40006800

/-- Four frames to tell slots apart. -/
def fa : Frame := stdFrame 0xA []

def fb : Frame := stdFrame 0xB []

def fc : Frame := stdFrame 0xC []

def fd : Frame := stdFrame 0xD []

/-- `F1`, `F2` of 95_test_vectors 2.2. -/
def f1 : Frame := stdFrame 0x101 [0xA1]

def f2 : Frame := stdFrame 0x102 [0xA2, 0xB2]

/-- The queue alone at `C = 4`. -/
def queue4 : State := State.construct ⟨4, 32, .queue, false⟩

/-- The same with PARALLEL_DOMAINS = true. -/
def queue4p : State := State.construct ⟨4, 32, .queue, true⟩

/-- One frame held, in slot 0. -/
def queueOne : State := { queue4 with slots := [(0, fa)], head := 1, count := 1 }

/-- `head=2 tail=2 count=4`, `slots=[a b c d]` (Q5). -/
def queueFour : State :=
  { queue4 with slots := [(0, fa), (1, fb), (2, fc), (3, fd)], head := 2, tail := 2, count := 4 }

/-- Three frames held, `head` at the last slot. -/
def queueThree : State :=
  { queue4 with slots := [(0, fa), (1, fb), (2, fc)], head := 3, tail := 0, count := 3 }

/-- Q26's start, `slots[0]=a`. -/
def queueOnePar : State := { queue4p with slots := [(0, fa)], head := 1, count := 1 }

/-- `Ready` with `handle = Some(H)`, queue empty (2.4). -/
def ready : State := { State.reset with drvState := .ready, handle := some hndl }

/-- V2's start: one frame held. -/
def readyOne : State :=
  { ready with slots := [(0, stdFrame 0x123 [0x11, 0x22])], head := 1, count := 1 }

/-- A driver of capacity 1 with its one slot taken. -/
def readyFull : State :=
  { ready with params := ⟨1, 32, .driver, false⟩, slots := [(0, fa)], count := 1 }

/-- The same driver with PARALLEL_DOMAINS = true and room. -/
def readyPar : State := { readyOne with params := ⟨4, 32, .driver, true⟩ }

/-- Answers with one GetRx answer placed. -/
def rxAnswer (r : Option RxMessage) : EnvAnswers := ⟨[], [], [], [], [r]⟩

/-! ### Well-formedness: each check refuses an ill-formed term -/

theorem smoke_capacity_zero : Params.wf ⟨0, 32, .driver, false⟩ = false := by decide

theorem smoke_capacity_too_large : Params.wf ⟨2 ^ 32, 32, .driver, false⟩ = false := by decide

theorem smoke_handleW_zero : Params.wf ⟨32, 0, .driver, false⟩ = false := by decide

theorem smoke_handleW_too_large : Params.wf ⟨32, 109, .driver, false⟩ = false := by decide

theorem smoke_handle_too_wide :
    Instr.wellFormed 32 (.init 0x100000000) = false ∧
    Instr.wellFormed 32 (.rxirq 0x100000000) = false ∧
    Instr.wellFormed 32 (.errirq 0x100000000) = false ∧
    Instr.wellFormed 32 (.boffirq 0x100000000) = false := by decide

/-! ### Decoding: words written out by the spec (2.1) -/

theorem test_decode_format_n :
    decode 32 0x0000000000000000000000000001 = .ok .pop ∧
    decode 32 0x0000000000000000000000000002 = .ok .size ∧
    decode 32 0x0000000000000000000000000003 = .ok .recv := by decide

theorem test_decode_format_h :
    decode 32 0x0000000000000000000400064004 = .ok (.init hndl) ∧
    decode 32 0x0000000000000000000400064009 = .ok (.rxirq hndl) ∧
    decode 32 0x000000000000000000040006400A = .ok (.errirq hndl) ∧
    decode 32 0x000000000000000000040006400B = .ok (.boffirq hndl) ∧
    decode 32 0x0000000000000000000400068009 = .ok (.rxirq hndl2) := by decide

/-- E9, E12, E14. -/
theorem test_decode_send :
    decode 32 0x0807060504030201080000007FF5 =
      .ok (.send ⟨0x7FF, false, 8, ⟨1, 2, 3, 4, 5, 6, 7, 8⟩⟩) ∧
    decode 32 0x00000000000000000011FFFFFFF5 =
      .ok (.send ⟨0x1FFFFFFF, true, 0, Payload.zero⟩) ∧
    decode 32 0x0000000000000000FF0000000105 =
      .ok (.send ⟨0x10, false, 255, Payload.zero⟩) := by decide

/-- E10, E11, E13. -/
theorem test_decode_push :
    decode 32 0x0000000000002211020000001238 =
      .ok (.push ⟨0x123, false, 2, ⟨0x11, 0x22, 0, 0, 0, 0, 0, 0⟩⟩) ∧
    decode 32 0x080706050403020108118DAF1108 =
      .ok (.push ⟨0x18DAF110, true, 8, ⟨1, 2, 3, 4, 5, 6, 7, 8⟩⟩) ∧
    decode 32 0xFFFFFFFFFFFFFFFF081FFFFFFFF8 =
      .ok (.push ⟨0xFFFFFFFF, true, 8, ⟨0xFF, 0xFF, 0xFF, 0xFF, 0xFF, 0xFF, 0xFF, 0xFF⟩⟩) := by
  decide

/-- E15 to E20. -/
theorem test_decode_reserved :
    decode 32 0x0000000000000000000000000000 = .error (.reservedOpcode 0) ∧
    decode 32 0x0000000000000000000000000007 = .error (.reservedOpcode 7) ∧
    decode 32 0x000000000000000000000000000C = .error (.reservedOpcode 0xC) ∧
    decode 32 0x0000000000000000000000000011 = .error .nonZeroMbz ∧
    decode 32 0x0000000000000000002000001238 = .error .nonZeroMbz ∧
    decode 32 0x0000000000000000001400064004 = .error .nonZeroMbz := by decide

/-- The response words of 2.1. -/
theorem test_response_words :
    rfWord (some (stdFrame 0x123 [0x11, 0x22])) = 0x0000000000002211020000001231 ∧
    rfWord (some (extFrame 0x18DAF110 [1, 2, 3, 4, 5, 6, 7, 8])) = 0x080706050403020108118DAF1101 ∧
    respCount 32 = .rc 0x20 := by decide

/-- The host's entry: the first word with its upper bits absent, and a reserved word. -/
theorem test_decodeTableWord :
    decodeTableWord 112 0x400064009 = some (.rxirq hndl) ∧ decodeTableWord 112 0x11 = none := by
  decide

/-- A presented PUSH runs in the very next step after reset. -/
theorem test_withFetchWord :
    goesTo (step (State.reset.withFetchWord 112 0x0000000000002211020000001238))
      (fun t => t.slots == [(0, stdFrame 0x123 [0x11, 0x22])] && t.count == 1 &&
        t.responses == [(.w, .rb 1)]) = true := by decide

/-! ### One step of every operation, on vectors of the spec -/

/-- Q4: `head` wraps. -/
theorem test_push_wraps :
    goesTo (exec (.push f2) { queue4 with slots := [(1, fb), (2, fc)], head := 3, tail := 1, count := 2 })
      (fun t => t.slots == [(1, fb), (2, fc), (3, f2)] && t.head == 0 && t.count == 3 &&
        t.tail == 1 && t.responses == [(.w, .rb 1)]) = true := by decide

/-- Q5: full. -/
theorem test_push_full :
    goesTo (exec (.push f1) queueFour)
      (fun t => decide (t = { queueFour with responses := [(.w, .rb 0)] })) = true := by decide

/-- Q1. -/
theorem test_pop_empty :
    goesTo (exec .pop queue4)
      (fun t => decide (t = { queue4 with responses := [(.r, .rf 0)] })) = true := by decide

/-- Q6 at P3: `tail` wraps. -/
theorem test_pop_tail_wraps :
    goesTo (exec .pop { queueFour with tail := 3, count := 3, tPhase := .p3, tFrame := fd })
      (fun t => t.tail == 0 && t.count == 3 && t.tPhase == .p4) = true := by decide

/-- Q9. -/
theorem test_size :
    goesTo (exec .size queueThree) (fun t => t.responses == [(.r, .rc 3)] && t.count == 3) = true := by
  decide

theorem test_size_inside_pop : refusesWith (exec .size { queueOne with tPhase := .p2 }) .taskBusy = true := by
  decide

/-- V1. -/
theorem test_recv_not_ready :
    goesTo (exec .recv State.reset)
      (fun t => decide (t = { State.reset with responses := [(.t, .rf 0)] })) = true := by decide

/-- V2 at P4. -/
theorem test_recv_returns :
    goesTo (exec .recv { readyOne with tail := 1, tPhase := .p4, tFrame := stdFrame 0x123 [0x11, 0x22] })
      (fun t => t.responses == [(.t, .rf 0x0000000000002211020000001231)] && t.count == 0 &&
        t.tPhase == .idle) = true := by decide

/-- I1 at I3. -/
theorem test_init_commits :
    goesTo (exec (.init hndl)
        { State.reset with tPhase := .i3, tArg := hndl, env := ⟨[], [], [true], [], []⟩ })
      (fun t => t.drvState == .ready && t.handle == some hndl && t.tPhase == .idle &&
        t.calls == [.actNotify hndl [.rxPending, .busError, .busOff]] &&
        t.responses == [(.t, .rb 1)]) = true := by decide

/-- I2: CfgFilter fails. -/
theorem test_init_fails :
    goesTo (exec (.init hndl) { State.reset with env := ⟨[false], [], [], [], []⟩ })
      (fun t => t.drvState == .uninitialized && t.handle == none && t.tPhase == .idle &&
        t.calls == [.cfgFilter hndl ⟨0, 0⟩] && t.responses == [(.t, .rb 0)]) = true := by decide

/-- T6 at T2: an extended identifier below the standard bound. -/
theorem test_send_submits :
    goesTo (exec (.send (extFrame 0x800 [0x5A]))
        { ready with tPhase := .t2, tFrame := extFrame 0x800 [0x5A], env := ⟨[], [], [], [true], []⟩ })
      (fun t => t.calls == [.addTx hndl ⟨true, 0, 0x800, 1⟩ ⟨0x5A, 0, 0, 0, 0, 0, 0, 0⟩] &&
        t.responses == [(.t, .rb 1)] && t.tPhase == .idle) = true := by decide

/-- T2 of the vectors: one past the 11-bit bound. -/
theorem test_send_invalid :
    goesTo (exec (.send (stdFrame 0x800 [])) ready)
      (fun t => decide (t = { ready with responses := [(.t, .rb 0)] })) = true := by decide

/-- X3: the unselected identifier is ignored, bytes beyond `dlc` are copied. -/
theorem test_rxirq_translates :
    goesTo (exec (.rxirq hndl)
        { ready with env := rxAnswer (some ⟨⟨true, 0x7FF, 0x5, 0⟩, ⟨0xDE, 0xAD, 0xBE, 0xEF, 0, 0, 0, 0⟩⟩) })
      (fun t => t.slots == [(0, ⟨0x5, true, 0, ⟨0xDE, 0xAD, 0xBE, 0xEF, 0, 0, 0, 0⟩⟩)] &&
        t.head == 1 && t.count == 1 && t.calls == [.getRx hndl] && t.responses == []) = true := by
  decide

/-- X6: another peripheral's event. -/
theorem test_rxirq_mismatch :
    goesTo (exec (.rxirq hndl2) ready) (fun t => decide (t = ready)) = true := by decide

/-- X10, X11. -/
theorem test_error_events :
    goesTo (exec (.errirq hndl) readyOne) (fun t => decide (t = readyOne)) = true ∧
    goesTo (exec (.boffirq hndl) readyOne) (fun t => decide (t = readyOne)) = true := by decide

/-! ### Witnesses: the hypotheses of every obligation, clause by clause, at boundary values -/

theorem witness_DecodeOfEncodeIsIdentity :
    Instr.pop.wellFormed 32 = true ∧ Instr.size.wellFormed 32 = true ∧
    Instr.recv.wellFormed 32 = true ∧ (Instr.init 0xFFFFFFFF).wellFormed 32 = true ∧
    (Instr.send f1).wellFormed 32 = true ∧ (Instr.push f1).wellFormed 32 = true ∧
    (Instr.rxirq 0xFFFFFFFF).wellFormed 32 = true ∧ (Instr.errirq 1).wellFormed 1 = true ∧
    (Instr.boffirq 0xFFFFFFFFFFFFFFFFFFFFFFFFFFF).wellFormed 108 = true := by decide

theorem witness_EncodeOfDecodeIsIdentity :
    decode 32 0x0000000000000000000FFFFFFFF4 = .ok (.init 0xFFFFFFFF) := by decide

theorem witness_DecoderMatchesTheOpcodeTable :
    decode 32 0x0000000000002211020000001238 = .ok (.push (stdFrame 0x123 [0x11, 0x22])) ∧
    (0x0000000000002211020000001238 : CmdWord) &&& 0x000000000000000000E00000000F = 0x8 ∧
    (0x0000000000002211002000001238 : CmdWord) &&& 0x000000000000000000E00000000F ≠ 0x8 := by decide

theorem witness_FrameImageIsABijection :
    (0x0807060504030201FF1FFFFFFFF : BitVec 108).extractLsb' 33 3 = 0 := by decide

theorem witness_ResponseWordsCarryTheirResult :
    0 < 2 ^ 32 ∧ 2 ^ 32 - 1 < 2 ^ 32 := by decide

/-- A PUSH word issued by the task domain, and one issued by the interrupt domain. -/
theorem witness_DomainBitNamesTheOnlyAgent :
    decode queue4.params.handleW (encode (.push f1)) = .ok (.push f1) ∧
    (Instr.push f1).domain ≠ .task ∧ Instr.pop.domain ≠ .interrupt ∧
    refusesWith (step { queue4 with inputs := [.command .task .w (encode (.push f1))] }) .wrongDomain
      = true := by decide

theorem witness_ReservedEncodingsAreRefused :
    opcodeOf 0x7 ∈ ([0x0, 0x6, 0x7, 0xC, 0xD, 0xE, 0xF] : List (BitVec 4)) ∧
    opcodeOf 0xFFFFFFFFFFFFFFFFFFFFFFFFFFFF ∈
      ([0x0, 0x6, 0x7, 0xC, 0xD, 0xE, 0xF] : List (BitVec 4)) ∧
    opcodeOf 0x11 ∈ ([0x1, 0x2, 0x3] : List (BitVec 4)) ∧ operandOf 0x11 ≠ 0 ∧
    opcodeOf 0x1000000004 ∈ ([0x4, 0x9, 0xA, 0xB] : List (BitVec 4)) ∧
    2 ^ queue4.params.handleW ≤ (operandOf 0x1000000004).toNat ∧
    opcodeOf 0x2000000005 ∈ ([0x5, 0x8] : List (BitVec 4)) ∧
    (0x2000000005 : CmdWord).extractLsb' 37 3 ≠ 0 ∧
    decode queue4.params.handleW 0x1 = .ok .pop ∧ Instr.pop.port ≠ .w ∧
    Instr.recv.level ≠ queue4.params.level := by decide

theorem witness_SlotAccessMovesOneWholeFrame :
    3 < queue4.params.capacity ∧ queueFour.slots.read 3 = some fd ∧
    goesTo (exec .pop queueOne) (fun t => t.slots == queueOne.slots) = true ∧
    goesTo (exec .recv readyOne) (fun t => t.slots == readyOne.slots) = true := by decide

theorem witness_PushStoresAtHead :
    queueThree.iPhase = .idle ∧ queueThree.params.parallelDomains = false ∧
    queueThree.head = queueThree.params.capacity - 1 ∧
    queueThree.count = queueThree.params.capacity - 1 := by decide

theorem witness_OverflowDropsTheNewestFrame :
    (queueFour.iPhase = .idle ∧ queueFour.count = queueFour.params.capacity) ∧
    (readyFull.iPhase = .idle ∧ readyFull.params.parallelDomains = false ∧
      readyFull.drvState = .ready ∧ readyFull.handle = some hndl ∧
      readyFull.count = readyFull.params.capacity ∧
      (takeAnswer (rxAnswer (some (rxStd 1 [1, 2, 3, 4, 5, 6, 7, 8]))).getRx Config.freeRx 0).1 =
        some (rxStd 1 [1, 2, 3, 4, 5, 6, 7, 8]) ∧
      (rxStd 1 [1, 2, 3, 4, 5, 6, 7, 8]).hdr.dlc.toNat = 8) ∧
    ({ readyFull with iPhase := .w1 }.iPhase = .w1 ∧
      { readyFull with iPhase := .w1 }.count = readyFull.params.capacity) := by decide

theorem witness_PushMicroSteps :
    queueOnePar.iPhase = .idle ∧ queueOnePar.params.parallelDomains = true ∧
    queueOnePar.count ≠ queueOnePar.params.capacity ∧
    queueOnePar.head < queueOnePar.params.capacity ∧
    queueThree.count + 1 = queueThree.params.capacity ∧
    queueThree.head + 1 = queueThree.params.capacity ∧
    goesTo (exec (.push f1) { queueOnePar with iPhase := .w2, iFrame := f1 })
      (fun t => t.iPhase == .w3) = true ∧
    goesTo (exec (.push f1) { queueOnePar with iPhase := .w3, iFrame := f1 })
      (fun t => t.iPhase == .w4) = true ∧
    goesTo (exec (.push f1) { queueOnePar with iPhase := .w4, iFrame := f1 })
      (fun t => t.iPhase == .idle) = true := by decide

theorem witness_PopMicroSteps :
    (queueOne.tPhase = .idle ∧ queueOne.count = 1) ∧
    (queueFour.tail < queueFour.params.capacity ∧
      queueFour.slots.read queueFour.tail = some fc) ∧
    goesTo (exec .pop { queueOne with tPhase := .p2 }) (fun t => t.tPhase == .p3) = true ∧
    goesTo (exec .pop { queueOne with tPhase := .p3 }) (fun t => t.tPhase == .p4) = true ∧
    goesTo (exec .pop { queueOne with tPhase := .p4 }) (fun t => t.tPhase == .idle) = true := by decide

theorem witness_EmptyQueueAnswersNone :
    (queue4.tPhase = .idle ∧ queue4.count = 0) ∧
    (ready.tPhase = .idle ∧ ready.count = 0 ∧ ready.drvState = .ready) ∧
    (State.reset.tPhase = .idle ∧ State.reset.drvState = .uninitialized) := by decide

theorem witness_SizeReportsTheCount :
    queueFour.tPhase = .idle ∧ queueFour.count < 2 ^ 32 ∧ Machine.Inv queueFour ∧
    { queueOne with tPhase := .p2 }.tPhase ≠ .idle :=
  ⟨by decide, by decide, inv_of_good (by decide), by decide⟩

theorem witness_PopReturnsTheOldestFrame :
    Machine.Inv queueFour ∧ Quiescent queueFour ∧ queueFour.params.level = .queue ∧
    queueFour.count ≠ 0 :=
  ⟨inv_of_good (by decide), by decide, by decide, by decide⟩

/-- `head` and `tail` at the last slot. -/
theorem witness_PushThenPopRoundTrip :
    Machine.Inv { queue4 with head := 3, tail := 3 } ∧ Quiescent queue4 ∧
    queue4.params.level = .queue ∧ queue4.params.parallelDomains = false ∧ queue4.count = 0 :=
  ⟨inv_of_good (by decide), by decide, by decide, by decide, by decide⟩

/-- Each step of INIT, with a failing and with a successful answer. -/
theorem witness_InitMicroSteps :
    (State.reset.tPhase = .idle ∧ State.reset.drvState = .uninitialized) ∧
    goesTo (exec (.init hndl) { State.reset with env := ⟨[true], [], [], [], []⟩ })
      (fun t => t.tPhase == .i2) = true ∧
    goesTo (exec (.init hndl) { State.reset with tPhase := .i2, env := ⟨[], [false], [], [], []⟩ })
      (fun t => t.tPhase == .idle && t.responses == [(.t, .rb 0)]) = true ∧
    goesTo (exec (.init hndl) { State.reset with tPhase := .i3, env := ⟨[], [], [false], [], []⟩ })
      (fun t => t.tPhase == .idle && t.handle == none) = true := by decide

theorem witness_InitWhileReadyIsRefused : ready.tPhase = .idle ∧ ready.drvState = .ready := by decide

theorem witness_SuccessfulInitMakesTheDriverReady :
    Quiescent State.reset ∧ State.reset.params.level = .driver ∧
    State.reset.drvState = .uninitialized ∧
    handleFits State.reset.params.handleW 0xFFFFFFFF = true := by decide

theorem witness_NotReadyFailsSafely :
    State.reset.drvState = .uninitialized ∧ State.reset.tPhase = .idle ∧
    State.reset.iPhase = .idle := by decide

theorem witness_InvalidFrameIsRejectedBeforeHardware :
    ready.tPhase = .idle ∧ 8 < (⟨0, false, 9, Payload.zero⟩ : Frame).dlc.toNat ∧
    0x7FF < (stdFrame 0x800 []).id.toNat ∧ 0x1FFFFFFF < (extFrame 0x20000000 []).id.toNat := by decide

/-- T1 at both bounds, T2 with and without a handle. -/
theorem witness_SendMicroSteps :
    (ready.tPhase = .idle ∧ ready.drvState = .ready ∧
      (stdFrame 0x7FF [1, 2, 3, 4, 5, 6, 7, 8]).dlc.toNat = 8 ∧ (stdFrame 0x7FF []).id.toNat = 0x7FF ∧
      (extFrame 0x1FFFFFFF []).id.toNat = 0x1FFFFFFF) ∧
    ({ ready with tPhase := .t2 }.tPhase = .t2 ∧ ready.handle = some hndl) ∧
    ({ State.reset with tPhase := .t2 }.tPhase = .t2 ∧ State.reset.handle = none) := by decide

theorem witness_AdmissionFailureIsReportedOnce :
    { ready with tPhase := .t2 }.tPhase = .t2 ∧ ready.handle = some hndl ∧
    (takeAnswer [false] Config.freeAck 0).1 = false ∧
    ready.tPhase = .idle ∧ validFrame (stdFrame 0x800 []) = false ∧
    goesTo (exec (.send (stdFrame 0x800 [])) ready) (fun _ => true) = true ∧
    State.reset.drvState = .uninitialized ∧
    goesTo (exec (.send f1) State.reset) (fun _ => true) = true := by decide

theorem witness_TransmitHeaderLosesNothing :
    validFrame (stdFrame 0x7FF [1, 2, 3, 4, 5, 6, 7, 8]) = true ∧
    validFrame (extFrame 0x1FFFFFFF []) = true := by decide

theorem witness_RecvMicroSteps :
    (readyOne.tPhase = .idle ∧ readyOne.drvState = .ready ∧ readyOne.count ≠ 0) ∧
    (readyOne.tail < readyOne.params.capacity ∧
      readyOne.slots.read readyOne.tail = some (stdFrame 0x123 [0x11, 0x22])) ∧
    goesTo (exec .recv { readyOne with tPhase := .p2 }) (fun t => t.tPhase == .p3) = true ∧
    goesTo (exec .recv { readyOne with tPhase := .p3 }) (fun t => t.tPhase == .p4) = true ∧
    goesTo (exec .recv { readyOne with tPhase := .p4 }) (fun t => t.tPhase == .idle) = true := by decide

theorem witness_ForeignEventIsIgnored :
    (State.reset.iPhase = .idle ∧ State.reset.drvState = .uninitialized) ∧
    (ready.iPhase = .idle ∧ ready.drvState = .ready ∧ ready.handle ≠ some hndl2) := by decide

theorem witness_FetchFailurePushesNothing :
    ready.iPhase = .idle ∧ ready.drvState = .ready ∧ ready.handle = some hndl ∧
    (takeAnswer (rxAnswer none).getRx Config.freeRx 0).1 = none := by decide

/-- A message of length 8, with either setting of PARALLEL_DOMAINS; the queue one short of full. -/
theorem witness_RxirqStoresOneTranslatedFrame :
    (ready.iPhase = .idle ∧ ready.drvState = .ready ∧ ready.handle = some hndl) ∧
    (takeAnswer (rxAnswer (some (rxExt 5 [1, 2, 3, 4, 5, 6, 7, 8]))).getRx Config.freeRx 0).1 =
      some (rxExt 5 [1, 2, 3, 4, 5, 6, 7, 8]) ∧
    (rxExt 5 [1, 2, 3, 4, 5, 6, 7, 8]).hdr.dlc.toNat = 8 ∧
    (ready.params.parallelDomains = false ∧ ready.head < ready.params.capacity ∧
      { readyFull with slots := [], count := 0 }.count + 1 = readyFull.params.capacity) ∧
    (readyPar.iPhase = .idle ∧ readyPar.drvState = .ready ∧ readyPar.handle = some hndl ∧
      readyPar.params.parallelDomains = true) := by decide

theorem witness_RxirqPushMicroSteps :
    readyPar.count ≠ readyPar.params.capacity ∧ readyPar.head < readyPar.params.capacity ∧
    goesTo (exec (.rxirq hndl) { readyPar with iPhase := .w1 }) (fun t => t.iPhase == .w2) = true ∧
    goesTo (exec (.rxirq hndl) { readyPar with iPhase := .w2 }) (fun t => t.iPhase == .w3) = true ∧
    goesTo (exec (.rxirq hndl) { readyPar with iPhase := .w3 }) (fun t => t.iPhase == .w4) = true ∧
    goesTo (exec (.rxirq hndl) { readyPar with iPhase := .w4 }) (fun t => t.iPhase == .idle) = true := by
  decide

theorem witness_ReceivedLengthIsBounded :
    ready.iPhase = .idle ∧ ready.drvState = .ready ∧ ready.handle = some hndl ∧
    (takeAnswer (rxAnswer (some ⟨⟨false, 1, 0, 9⟩, Payload.zero⟩)).getRx Config.freeRx 0).1 =
      some ⟨⟨false, 1, 0, 9⟩, Payload.zero⟩ ∧
    8 < (⟨false, 1, 0, 9⟩ : Header).dlc.toNat ∧ (⟨false, 1, 0, 8⟩ : Header).dlc.toNat ≤ 8 := by decide

theorem witness_InvariantHoldsAtReset :
    Params.wf ⟨1, 1, .queue, true⟩ = true ∧ Params.wf ⟨2 ^ 32 - 1, 108, .driver, false⟩ = true := by
  decide

/-- A PUSH into the last free slot, a POP at P4, an INIT at I3. -/
theorem witness_EveryStepKeepsTheInvariant :
    (Machine.Inv { queueThree with inputs := [issue (.push f1)] } ∧
      goesTo (step { queueThree with inputs := [issue (.push f1)] }) (fun t => t.count == 4) = true) ∧
    (Machine.Inv { queueOne with tail := 1, tPhase := .p4, tFrame := fa } ∧
      goesTo (step { queueOne with tail := 1, tPhase := .p4, tFrame := fa }) (fun t => t.count == 0)
        = true) ∧
    (Machine.Inv { State.reset with tPhase := .i3, tArg := hndl, env := ⟨[], [], [true], [], []⟩ } ∧
      goesTo (step { State.reset with tPhase := .i3, tArg := hndl, env := ⟨[], [], [true], [], []⟩ })
        (fun t => t.drvState == .ready) = true) :=
  ⟨⟨inv_of_good (by decide), by decide⟩, ⟨inv_of_good (by decide), by decide⟩,
    ⟨inv_of_good (by decide), by decide⟩⟩

theorem witness_NoStepFaults :
    Machine.Inv State.reset ∧ Machine.Inv queueFour ∧ Machine.Inv readyFull ∧
    Machine.Inv { queueOne with tPhase := .p2 } :=
  ⟨inv_of_good (by decide), inv_of_good (by decide), inv_of_good (by decide),
    inv_of_good (by decide)⟩

theorem witness_EveryOperationGoesOn :
    (Machine.Inv ready ∧ (Instr.send f1).level = ready.params.level ∧ ready.tPhase = .idle) ∧
    (Machine.Inv { readyOne with tPhase := .p2 } ∧ Instr.recv.level = readyOne.params.level ∧
      taskInProgress { readyOne with tPhase := .p2 } = some .recv) ∧
    (Instr.rxirq hndl).domain ≠ .task :=
  ⟨⟨inv_of_good (by decide), by decide, by decide⟩,
    ⟨inv_of_good (by decide), by decide, by decide⟩, by decide⟩

theorem witness_QueueRelationHolds :
    (Machine.Inv queueFour ∧ Quiescent queueFour ∧ 3 < queueFour.count) ∧
    (Machine.Inv { queueOne with tail := 1, tPhase := .p4, tFrame := fa } ∧
      { queueOne with tail := 1, tPhase := .p4, tFrame := fa }.iPhase ≠ .w4) :=
  ⟨⟨inv_of_good (by decide), by decide, by decide⟩, ⟨inv_of_good (by decide), by decide⟩⟩

theorem witness_RegistersFitTheirWidths :
    Machine.Inv (State.construct ⟨1, 32, .queue, false⟩) ∧ Machine.Inv queueFour :=
  ⟨inv_of_good (by decide), inv_of_good (by decide)⟩

theorem witness_EveryStepIsOneQueueEvent :
    (Machine.Inv { queueOne with inputs := [issue .size] } ∧
      goesTo (step { queueOne with inputs := [issue .size] }) (fun t => t.count == 1) = true) ∧
    (Machine.Inv { queueThree with inputs := [issue (.push f1)] } ∧
      goesTo (step { queueThree with inputs := [issue (.push f1)] })
        (fun t => contents t == [some fa, some fb, some fc, some f1]) = true) ∧
    (Machine.Inv { queueOne with tail := 1, tPhase := .p4, tFrame := fa } ∧
      goesTo (step { queueOne with tail := 1, tPhase := .p4, tFrame := fa })
        (fun t => contents t == []) = true) :=
  ⟨⟨inv_of_good (by decide), by decide⟩, ⟨inv_of_good (by decide), by decide⟩,
    ⟨inv_of_good (by decide), by decide⟩⟩

/-- Q22 as a run: a PUSH after P1, then the POP completes. -/
theorem witness_DeliveryIsFifo :
    Machine.Inv { queueOne with inputs := [issue .pop, issue (.push f1), .resume .task] } ∧
    goesTo (runSteps 3 { queueOne with inputs := [issue .pop, issue (.push f1), .resume .task] })
      (fun t => t.count == 2 && t.tFrame == fa) = true :=
  ⟨inv_of_good (by decide), by decide⟩

theorem witness_AcceptedFrameIsTheOneOffered :
    (Machine.Inv queueThree ∧ queueThree.iPhase = .idle ∧
      queueThree.params.parallelDomains = false ∧ queueThree.count + 1 = queueThree.params.capacity) ∧
    (Machine.Inv { ready with env := rxAnswer (some (rxStd 0x123 [0x11])) } ∧
      ready.iPhase = .idle ∧ ready.params.parallelDomains = false ∧ ready.drvState = .ready ∧
      ready.handle = some hndl ∧ (rxStd 0x123 [0x11]).hdr.dlc.toNat ≤ 8 ∧
      ready.count < ready.params.capacity) ∧
    Machine.Inv { queueOnePar with
      slots := [(0, fa), (1, f1)], head := 2, iPhase := .w4, iFrame := f1 } :=
  ⟨⟨inv_of_good (by decide), by decide, by decide, by decide⟩,
    ⟨inv_of_good (by decide), by decide, by decide, by decide, by decide, by decide, by decide⟩,
    inv_of_good (by decide)⟩

/-- A PUSH between any two micro-steps of a POP (Q20, Q22, Q24). -/
theorem witness_PreemptionKeepsTheOldestFrame :
    Machine.Inv { queueOne with tPhase := .p2 } ∧
    Machine.Inv { queueOne with tPhase := .p3, tFrame := fa } ∧
    Machine.Inv { queueFour with tail := 3, tPhase := .p4, tFrame := fc } ∧
    (Instr.push f1).domain = .interrupt ∧ (Instr.push f1).level = queueOne.params.level ∧
    goesTo (exec (.push f1) { queueOne with tPhase := .p2 }) (fun t => t.count == 2) = true ∧
    goesTo (exec (.push f1) { queueFour with tail := 3, tPhase := .p4, tFrame := fc })
      (fun t => t.count == 4) = true :=
  ⟨inv_of_good (by decide), inv_of_good (by decide), inv_of_good (by decide), by decide, by decide,
    by decide, by decide⟩

theorem witness_CountMovesByOne :
    goesTo (step { queue4 with inputs := [issue (.push f1)] }) (fun t => t.count == 1) = true ∧
    goesTo (step { queueOne with tPhase := .p4 }) (fun t => t.count == 0) = true ∧
    goesTo (step queueOne) (fun t => t.count == 1) = true := by decide

theorem witness_ReadyIsReachedOnlyByInitAndForever :
    (Machine.Inv ready ∧ ready.drvState = .ready ∧ goesTo (step ready) (fun _ => true) = true) ∧
    (Machine.Inv { State.reset with tPhase := .i3, tArg := hndl, env := ⟨[], [], [true], [], []⟩ } ∧
      goesTo (step { State.reset with tPhase := .i3, tArg := hndl, env := ⟨[], [], [true], [], []⟩ })
        (fun t => t.drvState == .ready) = true) :=
  ⟨⟨inv_of_good (by decide), by decide, by decide⟩, ⟨inv_of_good (by decide), by decide⟩⟩

theorem witness_ParametersNeverChange :
    goesTo (step { ready with inputs := [issue (.send f1)] }) (fun t => t.tPhase == .t2) = true := by
  decide

theorem witness_InterruptDomainFrame :
    (Instr.push f1).domain = .interrupt ∧
    goesTo (exec (.push f1) queueThree) (fun t => t.count == 4) = true ∧
    (Instr.rxirq hndl).domain = .interrupt ∧
    goesTo (exec (.rxirq hndl) { ready with env := rxAnswer (some (rxStd 1 [])) })
      (fun t => t.count == 1) = true := by decide

theorem witness_TaskDomainFrame :
    Instr.pop.domain = .task ∧ goesTo (exec .pop queueOne) (fun t => t.tPhase == .p2) = true ∧
    (Instr.send f1).domain = .task ∧
    goesTo (exec (.send f1) ready) (fun t => t.tPhase == .t2) = true := by decide

theorem witness_AtMostOneCallAndResponsePerStep :
    goesTo (step { ready with tPhase := .t2, env := ⟨[], [], [], [true], []⟩ })
      (fun t => t.calls.length == 1 && t.responses.length == 1) = true := by decide

/-- Both domains in the middle of an operation. -/
theorem witness_StartedOperationsComplete :
    Machine.Inv { queueOnePar with tPhase := .p2, iPhase := .w1, iFrame := f1 } ∧
    { queueOnePar with tPhase := .p2, iPhase := .w1, iFrame := f1 }.inputs = [] ∧
    goesTo (runSteps 7 { queueOnePar with tPhase := .p2, iPhase := .w1, iFrame := f1 })
      (fun t => t.tPhase == .idle && t.iPhase == .idle) = true :=
  ⟨inv_of_good (by decide), by decide, by decide⟩

/-- The same content one slot further on. -/
theorem witness_QueuePositionIsUnobservable :
    Machine.Inv queueOne ∧ Machine.Inv { queueOne with slots := [(3, fa)], head := 0, tail := 3 } ∧
    SameView queueOne { queueOne with slots := [(3, fa)], head := 0, tail := 3 } ∧
    goesTo (step queueOne) (fun _ => true) = true ∧
    refusesWith (step { queueOne with inputs := [.command .task .r 0] })
      (.reservedEncoding (.reservedOpcode 0)) = true :=
  ⟨inv_of_good (by decide), inv_of_good (by decide), by decide, by decide, by decide⟩

theorem witness_StepRunsTheAcceptedCommand :
    (decode queue4.params.handleW 0x1 = .ok .pop ∧ Instr.pop.port = .r ∧
      Instr.pop.level = queue4.params.level ∧ queue4.tPhase = .idle) ∧
    (decode ready.params.handleW (encode (.rxirq hndl)) = .ok (.rxirq hndl) ∧
      (Instr.rxirq hndl).port = .i ∧ (Instr.rxirq hndl).level = ready.params.level ∧
      ready.iPhase = .idle) := by decide

theorem witness_StepContinuesTheOperationInProgress :
    ({ queueOne with tPhase := .p2 }.tPhase = .p2 ∧ queueOne.params.level = .queue) ∧
    ({ readyOne with tPhase := .p4 }.tPhase = .p4 ∧ readyOne.params.level = .driver) ∧
    { State.reset with tPhase := .i2 }.tPhase = .i2 ∧ { ready with tPhase := .t2 }.tPhase = .t2 ∧
    queueOne.tPhase = .idle ∧
    ({ queueOnePar with iPhase := .w4 }.iPhase ≠ .idle ∧ queueOnePar.params.level = .queue) ∧
    ({ readyPar with iPhase := .w1 }.iPhase ≠ .idle ∧ readyPar.params.level = .driver) := by decide

theorem witness_CommandInsideAnOperationIsRefused :
    decode queueOne.params.handleW 0x2 = .ok .size ∧ Instr.size.level = queueOne.params.level ∧
    Instr.size.domain = .task ∧ { queueOne with tPhase := .p4 }.tPhase ≠ .idle := by decide

theorem witness_EventDuringAnEventWaits :
    (decode queueOnePar.params.handleW (encode (.push f2)) = .ok (.push f2) ∧
      (Instr.push f2).level = queueOnePar.params.level ∧
      { queueOnePar with iPhase := .w2 }.iPhase ≠ .idle) ∧
    (decode readyPar.params.handleW (encode (.rxirq hndl)) = .ok (.rxirq hndl) ∧
      (Instr.rxirq hndl).level = readyPar.params.level ∧
      { readyPar with iPhase := .w4 }.iPhase ≠ .idle) := by decide

theorem witness_NothingPresentedOnlyFinishes :
    queueOne.inputs = [] ∧ Quiescent queueOne ∧
    { queueOnePar with iPhase := .w2 }.iPhase ≠ .idle ∧ { readyPar with iPhase := .w1 }.iPhase ≠ .idle ∧
    { State.reset with tPhase := .i3 }.iPhase = .idle ∧ { ready with tPhase := .t2 }.iPhase = .idle ∧
    { queueOne with tPhase := .p3 }.iPhase = .idle ∧ { readyOne with tPhase := .p3 }.iPhase = .idle := by
  decide

end Sys2Proof.Tests
end

