-- ==== Sys2Proof/Proofs/Scope.lean ====
section
/-! The scope statements (00_scope): the widths the registers need (R3) and the fixed parameters (R2, R5,
R6, R20). -/

namespace Sys2Proof.Machine

/-! ### Register widths -/

/-- Every slot index fits `IDX_W` bits (R3). -/
theorem lt_two_pow_idxW {c x : Nat} (hx : x < c) : x < 2 ^ Config.idxW c :=
  calc x < c := hx
    _ ≤ 2 ^ Nat.clog 2 c := Nat.le_pow_clog Nat.one_lt_two c
    _ ≤ 2 ^ Config.idxW c := Nat.pow_le_pow_right Nat.two_pos (Nat.le_max_right _ _)

/-- Every count from 0 to the capacity, both included, fits `CNT_W` bits (R3). -/
theorem lt_two_pow_cntW {c x : Nat} (hx : x ≤ c) : x < 2 ^ Config.cntW c :=
  (Nat.lt_succ_of_le hx).trans_le (Nat.le_pow_clog Nat.one_lt_two (c + 1))

/-- Settles O39: the invariant bounds `head`, `tail` and `count` by the capacity, which the widths of R3
cover. -/
theorem registersFitTheirWidths : Obligations.RegistersFitTheirWidths := by
  refine ⟨by decide, by decide, fun s hs => ?_⟩
  obtain ⟨-, ⟨-, -, hhead, htail, hcount, -, -⟩, -, -, -⟩ := hs
  exact ⟨lt_two_pow_idxW hhead, lt_two_pow_idxW htail, lt_two_pow_cntW hcount⟩

/-! ### The parameters, micro-step by micro-step -/

@[simp] theorem pushReturn_params (out : Option Port) (ok : Bool) (s : State) :
    (pushReturn out ok s).params = s.params := by
  rw [pushReturn_eq]

@[simp] theorem pushW1_params (out : Option Port) (f : Frame) (s : State) :
    (pushW1 out f s).params = s.params := by
  obtain ⟨-, h⟩ | ⟨-, h⟩ := pushW1_cases out f s <;> simp [h]

@[simp] theorem initI2_params (s : State) : (initI2 s).params = s.params := by
  rw [initI2_eq]
  split <;> simp

@[simp] theorem initI3_params (s : State) : (initI3 s).params = s.params := by
  rw [initI3_eq]
  dsimp only
  split <;> simp

@[simp] theorem sendT2_params (s : State) : (sendT2 s).params = s.params := by
  unfold sendT2
  split <;> simp

theorem pushWhole_params {out : Option Port} {f : Frame} {s t : State}
    (h : pushWhole out f s = .next t) : t.params = s.params := by
  obtain ⟨-, rfl⟩ | ⟨-, -, rfl⟩ := pushWhole_eq_next.1 h <;> simp

theorem pushResume_params {out : Option Port} {s t : State}
    (h : pushResume out s = .next t) : t.params = s.params := by
  obtain ⟨-, rfl⟩ | ⟨-, rfl⟩ | ⟨-, -, rfl⟩ | ⟨-, rfl⟩ | ⟨-, -, rfl⟩ := pushResume_eq_next.1 h <;> simp

theorem popResume_params {out : Port} {s t : State}
    (h : popResume out s = .next t) : t.params = s.params := by
  obtain ⟨-, -, f, -, rfl⟩ | ⟨-, rfl⟩ | ⟨-, -, rfl⟩ := popResume_eq_next.1 h <;> simp

theorem rxDeliver_params {src : Handle} {r : Option RxMessage} {s t : State}
    (h : rxDeliver src r s = .next t) : t.params = s.params := by
  obtain ⟨-, rfl⟩ | ⟨m, -, -, ⟨-, hpush⟩ | ⟨-, rfl⟩⟩ := rxDeliver_eq_next.1 h
  · rfl
  · exact pushWhole_params hpush
  · rfl

/-! ### The parameters, operation by operation -/

theorem execPop_params {s t : State} (h : execPop s = .next t) : t.params = s.params := by
  obtain ⟨-, -, rfl⟩ | ⟨-, -, rfl⟩ | hresume := execPop_eq_next.1 h
  · simp
  · rfl
  · exact popResume_params hresume

theorem execSize_params {s t : State} (h : execSize s = .next t) : t.params = s.params := by
  obtain ⟨-, rfl⟩ := execSize_eq_next.1 h
  simp

theorem execRecv_params {s t : State} (h : execRecv s = .next t) : t.params = s.params := by
  obtain ⟨-, -, rfl⟩ | ⟨-, -, -, rfl⟩ | hresume := execRecv_eq_next.1 h
  · simp
  · rfl
  · exact popResume_params hresume

theorem execInit_params {hd : Handle} {s t : State} (h : execInit hd s = .next t) :
    t.params = s.params := by
  obtain ⟨-, -, rfl⟩ | ⟨-, rfl⟩ | ⟨-, rfl⟩ := execInit_eq_next.1 h
  · split <;> simp
  · simp
  · simp

theorem execSend_params {f : Frame} {s t : State} (h : execSend f s = .next t) :
    t.params = s.params := by
  obtain ⟨-, -, rfl⟩ | ⟨-, -, -, rfl⟩ | ⟨-, rfl⟩ := execSend_eq_next.1 h <;> simp

theorem execPush_params {f : Frame} {s t : State} (h : execPush f s = .next t) :
    t.params = s.params := by
  obtain ⟨-, -, hwhole⟩ | ⟨-, -, rfl⟩ | ⟨-, hresume⟩ := execPush_eq_next.1 h
  · exact pushWhole_params hwhole
  · simp
  · exact pushResume_params hresume

theorem execRxirq_params {src : Handle} {s t : State} (h : execRxirq src s = .next t) :
    t.params = s.params := by
  obtain ⟨-, -, rfl⟩ | ⟨-, -, -, hdeliver⟩ | ⟨-, hresume⟩ := execRxirq_eq_next.1 h
  · rfl
  · exact (rxDeliver_params hdeliver).trans (callGetRx_params src s)
  · exact pushResume_params hresume

/-- R101: ERRIRQ goes on to the state it found. -/
theorem execErrirq_eq_next {src : Handle} {s t : State} : execErrirq src s = .next t ↔ t = s := by
  simp [execErrirq, eq_comm]

/-- R102: BOFFIRQ goes on to the state it found. -/
theorem execBoffirq_eq_next {src : Handle} {s t : State} : execBoffirq src s = .next t ↔ t = s := by
  simp [execBoffirq, eq_comm]

theorem execErrirq_params {src : Handle} {s t : State} (h : execErrirq src s = .next t) :
    t.params = s.params := by
  rw [execErrirq_eq_next.1 h]

theorem execBoffirq_params {src : Handle} {s t : State} (h : execBoffirq src s = .next t) :
    t.params = s.params := by
  rw [execBoffirq_eq_next.1 h]

/-- No operation writes a parameter, whatever the state and its next micro-step (R20). -/
theorem exec_params {i : Instr} {s t : State} (h : exec i s = .next t) : t.params = s.params := by
  cases i with
  | pop => exact execPop_params h
  | size => exact execSize_params h
  | recv => exact execRecv_params h
  | init hd => exact execInit_params h
  | send f => exact execSend_params h
  | push f => exact execPush_params h
  | rxirq src => exact execRxirq_params h
  | errirq src => exact execErrirq_params (src := src) h
  | boffirq src => exact execBoffirq_params (src := src) h

/-- Settles O46: a step runs an operation, which writes no parameter, or only takes an input. -/
theorem parametersNeverChange : Obligations.ParametersNeverChange := by
  intro s t h
  obtain ⟨i, inputs, -, hexec⟩ | ⟨inputs, -, rfl⟩ := step_eq_next.1 h
  · simpa using exec_params hexec
  · rfl

end Sys2Proof.Machine
end

