-- ==== Sys2Proof/Proofs/StateInvariant.lean ====
section
/-! The invariant seen from the oldest frame (10_state R18, R24, 40_queue_ops R84): `Good` says the same as
`Inv` with named parts and without the two transients, and every micro-step keeps it. -/

namespace Sys2Proof.Machine

/-- The queue with its oldest frame in slot `o`. A POP takes effect at P4 (R84), so counted from `o` the
relation of R18 needs no correction for a POP in progress. -/
structure QueueAt (o : Nat) (s : State) : Prop where
  slots_wf : Memory.wf s.slots = true
  slots_lt : ∀ c ∈ s.slots, c.1 < s.params.capacity
  oldest_lt : o < s.params.capacity
  count_le : s.count ≤ s.params.capacity
  head_eq : s.head = (o + (s.count + pushLag s)) % s.params.capacity
  written : ∀ k < s.count, (s.slots.read ((o + k) % s.params.capacity)).isSome = true

/-- What the phase of the task-domain operation in progress says (R81, R90, R91). -/
structure TaskOk (s : State) : Prop where
  pop_count : s.tPhase = .p2 ∨ s.tPhase = .p3 ∨ s.tPhase = .p4 → 1 ≤ s.count
  pop_frame : s.tPhase = .p3 ∨ s.tPhase = .p4 → s.slots.read (oldest s) = some s.tFrame
  init_phase : s.tPhase = .i2 ∨ s.tPhase = .i3 → s.params.level = .driver ∧
    s.drvState = .uninitialized ∧ handleFits s.params.handleW s.tArg = true
  send_phase : s.tPhase = .t2 → s.params.level = .driver ∧
    s.drvState = .ready ∧ validFrame s.tFrame = true

/-- What the phase of the PUSH in progress says (R80, R150 d): from W3 on its frame stands right behind
the frames `count` counts. -/
structure PushOk (s : State) : Prop where
  room : s.iPhase = .w2 ∨ s.iPhase = .w3 ∨ s.iPhase = .w4 → s.count < s.params.capacity
  frame : s.iPhase = .w3 ∨ s.iPhase = .w4 →
    s.slots.read ((oldest s + s.count) % s.params.capacity) = some s.iFrame
  parallel : s.iPhase ≠ .idle → s.params.parallelDomains = true
  source : s.params.level = .driver → s.iPhase ≠ .idle →
    validFrame s.iFrame = true ∧ s.handle = some s.iArg

/-- The driver's registers (R24 a) and what a level rules out (R6, R24 b, R92 c). -/
structure DriverOk (s : State) : Prop where
  handle_ready : s.handle.isSome = true ↔ s.drvState = .ready
  handle_fits : s.handle.all (handleFits s.params.handleW) = true
  queue_level : s.params.level = .queue → s.drvState = .uninitialized
  fresh : s.params.level = .driver → s.drvState = .uninitialized →
    s.count = 0 ∧ s.slots = [] ∧ s.iPhase = .idle
  valid_slots : s.params.level = .driver → ∀ c ∈ s.slots, validFrame c.2 = true

/-- The invariant of the block, counted from the oldest frame (`inv_iff_good`). -/
structure Good (s : State) : Prop where
  params_wf : s.params.wf = true
  tail_lt : s.tail < s.params.capacity
  queue : QueueAt (oldest s) s
  task : TaskOk s
  push : PushOk s
  driver : DriverOk s

/-! ### The same invariant -/

theorem Params.capacity_pos {p : Params} (h : p.wf = true) : 1 ≤ p.capacity := by
  simp only [Params.wf, Bool.and_eq_true, decide_eq_true_eq] at h
  exact h.1.1.1

theorem oldest_of_p4 {s : State} (h : s.tPhase = .p4) :
    oldest s = prevIndex s.params.capacity s.tail := by
  simp [oldest, h]

@[simp] theorem nextIndex_prevIndex {c x : Nat} (hx : x < c) :
    nextIndex c (prevIndex c x) = x := by
  rw [nextIndex_eq (prevIndex_lt (by omega) x), prevIndex_eq hx]
  split_ifs <;> omega

/-- The oldest frame's slot is `tail`, or the one behind it between P3 and P4. -/
theorem tail_eq_of_p4 {s : State} (ht : s.tail < s.params.capacity) (h : s.tPhase = .p4) :
    s.tail = nextIndex s.params.capacity (oldest s) := by
  rw [oldest_of_p4 h, nextIndex_prevIndex ht]

theorem oldest_lt {s : State} (ht : s.tail < s.params.capacity) : oldest s < s.params.capacity := by
  unfold oldest
  split
  · exact prevIndex_lt (by omega) _
  · exact ht

/-- R18's relation and its transient for a POP say where `head` is from the oldest frame. -/
theorem head_lag_iff {s : State} (hh : s.head < s.params.capacity) (ht : s.tail < s.params.capacity) :
    (s.head + popLag s) % s.params.capacity = (s.tail + s.count + pushLag s) % s.params.capacity ↔
      s.head = (oldest s + (s.count + pushLag s)) % s.params.capacity := by
  have hmod : s.head % s.params.capacity = s.head := Nat.mod_eq_of_lt hh
  by_cases hp : s.tPhase = .p4
  · have hshift := slot_nextIndex (c := s.params.capacity) (oldest s) (s.count + pushLag s)
    rw [← tail_eq_of_p4 ht hp] at hshift
    rw [show popLag s = 1 by simp [popLag, hp], Nat.add_assoc s.tail, hshift, ← Nat.add_assoc]
    constructor
    · intro h
      exact hmod.symm.trans (Nat.ModEq.add_right_cancel' 1 h)
    · intro h
      rw [h, Nat.mod_add_mod]
  · rw [oldest_of_ne_p4 hp, show popLag s = 0 by simp [popLag, hp], Nat.add_zero, hmod, Nat.add_assoc]

/-- Where the slot of `tail`'s `k`-th frame is from the oldest frame. -/
theorem tail_slot {s : State} (ht : s.tail < s.params.capacity) (k : Nat) :
    (s.tail + k) % s.params.capacity = (oldest s + (k + popLag s)) % s.params.capacity := by
  by_cases hp : s.tPhase = .p4
  · rw [tail_eq_of_p4 ht hp, slot_nextIndex, show popLag s = 1 by simp [popLag, hp]]
  · rw [oldest_of_ne_p4 hp, show popLag s = 0 by simp [popLag, hp], Nat.add_zero]

theorem QueueAt.head_lt {o : Nat} {s : State} (hq : QueueAt o s) : s.head < s.params.capacity := by
  rw [hq.head_eq]
  exact Nat.mod_lt _ (by have := hq.oldest_lt; omega)

/-- With no PUSH between W3 and W4, `head` is the slot behind the last frame counted. -/
theorem QueueAt.head_of_ne_w4 {o : Nat} {s : State} (hq : QueueAt o s) (h : s.iPhase ≠ .w4) :
    s.head = (o + s.count) % s.params.capacity := by
  simpa [pushLag, h] using hq.head_eq

/-- Between W3 and W4, `head` is one slot further on. -/
theorem QueueAt.head_of_w4 {o : Nat} {s : State} (hq : QueueAt o s) (h : s.iPhase = .w4) :
    s.head = nextIndex s.params.capacity ((o + s.count) % s.params.capacity) := by
  simpa [pushLag, h, nextIndex, Nat.add_assoc] using hq.head_eq

theorem good_of_inv {s : State} (h : Inv s) : Good s := by
  obtain ⟨hwf, ⟨hcanon, hlt, hhead, htail, hcount, hrel, hwritten⟩,
    ⟨hpop, hp3, hp4, hroom, hw3, hw4, hserial⟩, ⟨hready, hfits, hinit, hsend⟩,
    ⟨hqueue, hfresh, hdriver⟩⟩ := h
  have hframe : s.tPhase = .p3 ∨ s.tPhase = .p4 → s.slots.read (oldest s) = some s.tFrame := by
    rintro (hp | hp)
    · rw [oldest_of_ne_p4 (by simp [hp])]
      exact hp3 hp
    · rw [oldest_of_p4 hp]
      exact hp4 hp
  have hlevel : s.tPhase = .i2 ∨ s.tPhase = .i3 ∨ s.tPhase = .t2 → s.params.level = .driver := by
    intro hp
    cases hl : s.params.level with
    | driver => rfl
    | queue =>
      obtain ⟨-, hi2, hi3, ht2⟩ := hqueue hl
      simp [hi2, hi3, ht2] at hp
  have queue : QueueAt (oldest s) s :=
    { slots_wf := hcanon
      slots_lt := hlt
      oldest_lt := oldest_lt htail
      count_le := hcount
      head_eq := (head_lag_iff hhead htail).1 hrel
      written := by
        intro k hk
        by_cases hk0 : k < popLag s
        · have hp : s.tPhase = .p4 := by
            by_contra hp
            simp [popLag, hp] at hk0
          obtain rfl : k = 0 := by simpa [popLag, hp] using hk0
          rw [Nat.add_zero, Nat.mod_eq_of_lt (oldest_lt htail), hframe (.inr hp)]
          rfl
        · have hread := hwritten (k - popLag s) (by omega)
          rwa [tail_slot htail, Nat.sub_add_cancel (by omega)] at hread }
  exact
    { params_wf := hwf
      tail_lt := htail
      queue := queue
      task :=
        { pop_count := hpop
          pop_frame := hframe
          init_phase := fun hp => ⟨hlevel (hp.imp_right .inl), hinit hp⟩
          send_phase := fun hp => ⟨hlevel (.inr (.inr hp)), hsend hp⟩ }
      push :=
        { room := hroom
          frame := by
            rintro (hp | hp)
            · rw [← queue.head_of_ne_w4 (by simp [hp])]
              exact hw3 hp
            · have hread := hw4 hp
              rwa [queue.head_of_w4 hp,
                prevIndex_nextIndex (Nat.mod_lt _ (Params.capacity_pos hwf))] at hread
          parallel := fun hp => by
            cases hd : s.params.parallelDomains with
            | true => rfl
            | false => exact absurd (hserial hd) hp
          source := fun hl => (hdriver hl).2 }
      driver :=
        { handle_ready := hready
          handle_fits := hfits
          queue_level := fun hl => (hqueue hl).1
          fresh := fun hl hd =>
            have ⟨hc, _, hm, hp⟩ := hfresh hl hd
            ⟨hc, hm, hp⟩
          valid_slots := fun hl => (hdriver hl).1 } }

theorem inv_of_good {s : State} (h : Good s) : Inv s := by
  obtain ⟨hwf, htail, hq, ht, hp, hd⟩ := h
  refine ⟨hwf, ⟨hq.slots_wf, hq.slots_lt, hq.head_lt, htail, hq.count_le,
    (head_lag_iff hq.head_lt htail).2 hq.head_eq, ?_⟩,
    ⟨ht.pop_count, ?_, ?_, hp.room, ?_, ?_, ?_⟩,
    ⟨hd.handle_ready, hd.handle_fits, fun h => (ht.init_phase h).2, fun h => (ht.send_phase h).2⟩,
    ⟨?_, ?_, fun hl => ⟨hd.valid_slots hl, hp.source hl⟩⟩⟩
  · intro k hk
    rw [tail_slot htail]
    by_cases hkc : k + popLag s < s.count
    · exact hq.written _ hkc
    · have hw4 : s.iPhase = .w4 := by
        by_contra hw4
        simp only [pushLag, hw4, if_false] at hk
        omega
      have hkeq : k + popLag s = s.count := by
        simp only [pushLag, hw4, if_true] at hk
        omega
      rw [hkeq, hp.frame (.inr hw4)]
      rfl
  · intro h3
    rw [← oldest_of_ne_p4 (by simp [h3])]
    exact ht.pop_frame (.inl h3)
  · intro h4
    rw [← oldest_of_p4 h4]
    exact ht.pop_frame (.inr h4)
  · intro h3
    rw [hq.head_of_ne_w4 (by simp [h3])]
    exact hp.frame (.inl h3)
  · intro h4
    rw [hq.head_of_w4 h4, prevIndex_nextIndex (Nat.mod_lt _ (Params.capacity_pos hwf))]
    exact hp.frame (.inr h4)
  · intro hpar
    by_contra hi
    simp [hp.parallel hi] at hpar
  · intro hl
    refine ⟨hd.queue_level hl, fun h => ?_, fun h => ?_, fun h => ?_⟩
    · simp [(ht.init_phase (.inl h)).1] at hl
    · simp [(ht.init_phase (.inr h)).1] at hl
    · simp [(ht.send_phase h).1] at hl
  · intro hl hu
    obtain ⟨hc, hm, hi⟩ := hd.fresh hl hu
    have hp4 : s.tPhase ≠ .p4 := fun h => by
      have := ht.pop_count (.inr (.inr h))
      omega
    refine ⟨hc, ?_, hm, hi⟩
    rw [hq.head_of_ne_w4 (by simp [hi]), oldest_of_ne_p4 hp4, hc, Nat.add_zero,
      Nat.mod_eq_of_lt htail]

/-- `Good` says what the invariant says. -/
theorem inv_iff_good {s : State} : Inv s ↔ Good s := ⟨good_of_inv, inv_of_good⟩

end Sys2Proof.Machine
end

