-- ==== Sys2Proof/Proofs/StateSteps.lean ====
section
/-! Every micro-step keeps the invariant (10_state R18, R24, 40_queue_ops R84): first the updates the
operations are made of, then the operations, then the step. -/

namespace Sys2Proof.Machine

/-! ### Updates -/

/-- The invariant does not look at what is presented, the peripheral's answers and the two records. -/
theorem Good.of_registers_eq {s t : State} (hs : Good s)
    (h : t = { s with
      inputs := t.inputs, env := t.env, draws := t.draws, responses := t.responses,
      calls := t.calls }) : Good t := by
  have hi := inv_of_good hs
  rw [h]
  exact good_of_inv hi

theorem TaskOk.of_idle {s : State} (h : s.tPhase = .idle) : TaskOk s := by
  constructor <;> simp [h]

theorem TaskOk.of_p2 {s : State} (h : s.tPhase = .p2) (hc : 1 ≤ s.count) : TaskOk s := by
  constructor <;> simp [h, hc]

theorem TaskOk.of_popped {s : State} (h : s.tPhase = .p3 ∨ s.tPhase = .p4) (hc : 1 ≤ s.count)
    (hr : s.slots.read (oldest s) = some s.tFrame) : TaskOk s := by
  rcases h with h | h <;> constructor <;> simp [h, hc, hr]

theorem TaskOk.of_init {s : State} (h : s.tPhase = .i2 ∨ s.tPhase = .i3)
    (hi : s.params.level = .driver ∧ s.drvState = .uninitialized ∧
      handleFits s.params.handleW s.tArg = true) : TaskOk s := by
  rcases h with h | h <;> constructor <;> simp [h, hi]

theorem TaskOk.of_send {s : State} (h : s.tPhase = .t2)
    (hi : s.params.level = .driver ∧ s.drvState = .ready ∧ validFrame s.tFrame = true) : TaskOk s := by
  constructor <;> simp [h, hi]

theorem PushOk.of_idle {s : State} (h : s.iPhase = .idle) : PushOk s := by
  constructor <;> simp [h]

/-- The task-domain sequencer moves, but not into or out of P4: only its own part is at stake. -/
theorem Good.setTask {s : State} (hs : Good s) {p : TPhase} {f : Frame} {a : Handle}
    (hp : s.tPhase ≠ .p4) (hp' : p ≠ .p4)
    (ht : TaskOk { s with tPhase := p, tFrame := f, tArg := a }) :
    Good { s with tPhase := p, tFrame := f, tArg := a } := by
  have ho : oldest { s with tPhase := p, tFrame := f, tArg := a } = oldest s := by
    rw [oldest_of_ne_p4 hp', oldest_of_ne_p4 hp]
  exact
    { params_wf := hs.params_wf
      tail_lt := hs.tail_lt
      queue := by
        rw [ho]
        exact { hs.queue with }
      task := ht
      push := { hs.push with
        frame := by
          rw [ho]
          exact hs.push.frame }
      driver := { hs.driver with } }

/-- The interrupt sequencer moves, but not into or out of W4: only its own part is at stake. -/
theorem Good.setPush {s : State} (hs : Good s) {p : IPhase} {f : Frame} {a : Handle}
    (hp : s.iPhase ≠ .w4) (hp' : p ≠ .w4)
    (hfresh : s.params.level = .driver → s.drvState = .ready)
    (hpush : PushOk { s with iPhase := p, iFrame := f, iArg := a }) :
    Good { s with iPhase := p, iFrame := f, iArg := a } :=
  { params_wf := hs.params_wf
    tail_lt := hs.tail_lt
    queue := { hs.queue with
      head_eq := by simpa [pushLag, hp, hp', oldest] using hs.queue.head_eq }
    task := { hs.task with }
    push := hpush
    driver := { hs.driver with
      fresh := fun hl hu => by simp [hfresh hl] at hu } }

/-- While there is room, `head` is none of the slots `count` counts. -/
theorem QueueAt.slot_ne_head {o k : Nat} {s : State} (hq : QueueAt o s) (hp : s.iPhase ≠ .w4)
    (hroom : s.count < s.params.capacity) (hk : k < s.count) :
    (o + k) % s.params.capacity ≠ s.head := by
  intro h
  rw [hq.head_of_ne_w4 hp] at h
  have := slot_inj hq.oldest_lt (by omega) hroom h
  omega

/-- The frame written into `head`'s slot stands right behind the frames `count` counts. -/
theorem QueueAt.read_written {o : Nat} {s : State} (hq : QueueAt o s) (hp : s.iPhase ≠ .w4) (f : Frame) :
    (s.slots.write s.head f).read ((o + s.count) % s.params.capacity) = some f := by
  rw [← hq.head_of_ne_w4 hp, Memory.read_write_same]

/-- While there is room and something is counted, the oldest frame does not stand in `head`'s slot. -/
theorem QueueAt.oldest_ne_head {o : Nat} {s : State} (hq : QueueAt o s) (hp : s.iPhase ≠ .w4)
    (hroom : s.count < s.params.capacity) (hc : 1 ≤ s.count) : o ≠ s.head := by
  simpa [Nat.mod_eq_of_lt hq.oldest_lt] using hq.slot_ne_head hp hroom hc

/-- W2's update (R80): the frame goes into `head`'s slot, which holds none that `count` counts. -/
theorem Good.writeHead {s : State} (hs : Good s) (hp : s.iPhase = .idle ∨ s.iPhase = .w2)
    (hroom : s.count < s.params.capacity) {f : Frame}
    (hv : s.params.level = .driver → s.drvState = .ready ∧ validFrame f = true) :
    Good { s with slots := s.slots.write s.head f } := by
  have hw4 : s.iPhase ≠ .w4 := by rcases hp with hp | hp <;> simp [hp]
  have hw3 : s.iPhase ≠ .w3 := by rcases hp with hp | hp <;> simp [hp]
  exact
    { params_wf := hs.params_wf
      tail_lt := hs.tail_lt
      queue := { hs.queue with
        slots_wf := Memory.write_wf _ _ hs.queue.slots_wf
        slots_lt := Memory.write_within _ hs.queue.slots_lt hs.queue.head_lt
        written := fun k hk => by
          refine (congrArg Option.isSome ?_).trans (hs.queue.written k hk)
          exact Memory.read_write_other _ _ (hs.queue.slot_ne_head hw4 hroom hk) }
      task := { hs.task with
        pop_frame := fun h => by
          have hc := hs.task.pop_count (.inr h)
          exact (Memory.read_write_other _ _ (hs.queue.oldest_ne_head hw4 hroom hc)).trans
            (hs.task.pop_frame h) }
      push := { hs.push with
        frame := fun h => (h.elim hw3 hw4).elim }
      driver := { hs.driver with
        fresh := fun hl hu => by simp [(hv hl).1] at hu
        valid_slots := fun hl c hc => by
          rcases Memory.mem_write hc with rfl | hc
          · exact (hv hl).2
          · exact hs.driver.valid_slots hl c hc } }

/-- W3's update (R80): `head` advances past the frame just written. -/
theorem Good.advanceHead {s : State} (hs : Good s) (hp : s.iPhase = .w3) :
    Good { s with head := nextIndex s.params.capacity s.head, iPhase := .w4 } :=
  { params_wf := hs.params_wf
    tail_lt := hs.tail_lt
    queue := { hs.queue with
      head_eq := by
        have hhead := hs.queue.head_of_ne_w4 (by simp [hp])
        simp [pushLag, nextIndex, oldest, hhead, Nat.add_assoc] }
    task := { hs.task with }
    push :=
      { room := fun _ => hs.push.room (by simp [hp])
        frame := fun _ => hs.push.frame (.inl hp)
        parallel := fun _ => hs.push.parallel (by simp [hp])
        source := fun hl _ => hs.push.source hl (by simp [hp]) }
    driver := { hs.driver with
      fresh := fun hl hu => by
        obtain ⟨-, -, hidle⟩ := hs.driver.fresh hl hu
        simp [hp] at hidle } }

/-- W4's update (R80): the frame behind the last one counted is counted, and `head` is behind it. -/
theorem Good.countUp {s : State} (hs : Good s) (hroom : s.count < s.params.capacity)
    (hread : (s.slots.read ((oldest s + s.count) % s.params.capacity)).isSome = true)
    (hready : s.params.level = .driver → s.drvState = .ready)
    {h : Nat} (hh : h = (oldest s + (s.count + 1)) % s.params.capacity)
    {p : IPhase} (hp : p = .idle) :
    Good { s with head := h, count := s.count + 1, iPhase := p } :=
  { params_wf := hs.params_wf
    tail_lt := hs.tail_lt
    queue := { hs.queue with
      count_le := hroom
      head_eq := by simpa [oldest, hp] using hh
      written := fun k hk => by
        rcases Nat.lt_succ_iff_lt_or_eq.1 hk with hk | rfl
        · exact hs.queue.written k hk
        · exact hread }
    task := { hs.task with
      pop_count := fun _ => Nat.le_add_left 1 s.count }
    push := PushOk.of_idle hp
    driver := { hs.driver with
      fresh := fun hl hu => by simp [hready hl] at hu } }

/-- P3's update (R81): `tail` advances; the frame stays the oldest one counted. -/
theorem Good.advanceTail {s : State} (hs : Good s) (hp : s.tPhase = .p3) :
    Good { s with tail := nextIndex s.params.capacity s.tail, tPhase := .p4 } := by
  have ho : oldest { s with tail := nextIndex s.params.capacity s.tail, tPhase := .p4 } = oldest s := by
    rw [oldest_of_p4 rfl, oldest_of_ne_p4 (by simp [hp])]
    exact prevIndex_nextIndex hs.tail_lt
  exact
    { params_wf := hs.params_wf
      tail_lt := nextIndex_lt (Params.capacity_pos hs.params_wf) _
      queue := by
        rw [ho]
        exact { hs.queue with }
      task := TaskOk.of_popped (.inr rfl) (hs.task.pop_count (by simp [hp])) (by
        rw [ho]
        exact hs.task.pop_frame (.inl hp))
      push := { hs.push with
        frame := by
          rw [ho]
          exact hs.push.frame }
      driver := { hs.driver with } }

/-- P4's update (R81, R84): the oldest frame leaves. -/
theorem Good.countDown {s : State} (hs : Good s) (hp : s.tPhase = .p4) :
    Good { s with count := s.count - 1, tPhase := .idle } := by
  have hc : 1 ≤ s.count := hs.task.pop_count (by simp [hp])
  have hshift (k : Nat) : (s.tail + k) % s.params.capacity =
      (oldest s + (k + 1)) % s.params.capacity := by
    simpa [popLag, hp] using tail_slot hs.tail_lt k
  exact
    { params_wf := hs.params_wf
      tail_lt := hs.tail_lt
      queue :=
        { slots_wf := hs.queue.slots_wf
          slots_lt := hs.queue.slots_lt
          oldest_lt := hs.tail_lt
          count_le := (Nat.sub_le _ _).trans hs.queue.count_le
          head_eq := by
            have hsum : s.count + pushLag s = s.count - 1 + pushLag s + 1 := by omega
            exact hs.queue.head_eq.trans (hsum ▸ (hshift _).symm)
          written := fun k hk => by
            show (s.slots.read ((s.tail + k) % s.params.capacity)).isSome = true
            rw [hshift]
            exact hs.queue.written _ (by simp at hk; omega) }
      task := TaskOk.of_idle rfl
      push := { hs.push with
        room := fun h => (Nat.sub_le _ _).trans_lt (hs.push.room h)
        frame := fun h => by
          show s.slots.read ((s.tail + (s.count - 1)) % s.params.capacity) = _
          rw [hshift, Nat.sub_add_cancel hc]
          exact hs.push.frame h }
      driver := { hs.driver with
        fresh := fun hl hu => by
          have := (hs.driver.fresh hl hu).1
          omega } }

/-- I3's update on success (R90): the handle and `drv_state` are committed together. -/
theorem Good.commit {s : State} (hs : Good s) (hp : s.tPhase = .i3) :
    Good { s with handle := some s.tArg, drvState := .ready, tPhase := .idle } := by
  obtain ⟨hlevel, hun, hfits⟩ := hs.task.init_phase (.inr hp)
  have hidle : s.iPhase = .idle := (hs.driver.fresh hlevel hun).2.2
  have ho : oldest { s with handle := some s.tArg, drvState := .ready, tPhase := .idle } = oldest s :=
    (oldest_of_ne_p4 (s := s) (by simp [hp])).symm
  exact
    { params_wf := hs.params_wf
      tail_lt := hs.tail_lt
      queue := by
        rw [ho]
        exact { hs.queue with }
      task := TaskOk.of_idle rfl
      push := PushOk.of_idle hidle
      driver :=
        { handle_ready := by simp
          handle_fits := by simpa using hfits
          queue_level := fun hl => by simp [hlevel] at hl
          fresh := fun _ hu => by simp at hu
          valid_slots := hs.driver.valid_slots } }

end Sys2Proof.Machine
end

