-- ==== Sys2Proof/Proofs/StateInvariantStep.lean ====
section
/-! The invariant holds after construction and every step keeps it (10_state R18, R24, R30). -/

namespace Sys2Proof.Machine

/-! ### Task-domain operations -/

/-- P1 of a POP or RECV that finds a frame (R81). -/
theorem Good.startPop {s : State} (hs : Good s) (hp : s.tPhase = .idle) (hc : s.count ≠ 0) :
    Good { s with tPhase := .p2 } :=
  hs.setTask (by simp [hp]) (by simp) (TaskOk.of_p2 rfl (Nat.one_le_iff_ne_zero.2 hc))

/-- A task-domain operation that holds no frame of the queue ends. -/
theorem Good.endTask {s : State} (hs : Good s) (hp : s.tPhase ≠ .p4) : Good { s with tPhase := .idle } :=
  hs.setTask hp (by simp) (TaskOk.of_idle rfl)

theorem popResume_good {out : Port} {s t : State} (hs : Good s) (h : popResume out s = .next t) :
    Good t := by
  obtain ⟨hp, -, f, hf, rfl⟩ | ⟨hp, rfl⟩ | ⟨hp, -, rfl⟩ := popResume_eq_next.1 h
  · exact hs.setTask (by simp [hp]) (by simp)
      (TaskOk.of_popped (.inl rfl) (hs.task.pop_count (.inl hp)) hf)
  · exact hs.advanceTail hp
  · exact (hs.countDown hp).of_registers_eq rfl

theorem execPop_good {s t : State} (hs : Good s) (h : execPop s = .next t) : Good t := by
  obtain ⟨-, -, rfl⟩ | ⟨hp, hc, rfl⟩ | hresume := execPop_eq_next.1 h
  · exact hs.of_registers_eq rfl
  · exact hs.startPop hp hc
  · exact popResume_good hs hresume

theorem execSize_good {s t : State} (hs : Good s) (h : execSize s = .next t) : Good t := by
  obtain ⟨-, rfl⟩ := execSize_eq_next.1 h
  exact hs.of_registers_eq rfl

theorem execRecv_good {s t : State} (hs : Good s) (h : execRecv s = .next t) : Good t := by
  obtain ⟨-, -, rfl⟩ | ⟨hp, -, hc, rfl⟩ | hresume := execRecv_eq_next.1 h
  · exact hs.of_registers_eq rfl
  · exact hs.startPop hp hc
  · exact popResume_good hs hresume

theorem initI2_good {s : State} (hs : Good s) (hp : s.tPhase = .i2) : Good (initI2 s) := by
  rw [initI2_eq]
  split
  · refine Good.of_registers_eq (s := { s with tPhase := .i3 }) ?_ rfl
    exact hs.setTask (by simp [hp]) (by simp) (TaskOk.of_init (.inr rfl) (hs.task.init_phase (.inl hp)))
  · exact (hs.endTask (by simp [hp])).of_registers_eq rfl

theorem initI3_good {s : State} (hs : Good s) (hp : s.tPhase = .i3) : Good (initI3 s) := by
  rw [initI3_eq]
  dsimp only
  split
  · exact (hs.commit hp).of_registers_eq rfl
  · exact (hs.endTask (by simp [hp])).of_registers_eq rfl

theorem execInit_good {hd : Handle} {s t : State} (hs : Good s) (hl : s.params.level = .driver)
    (hfits : handleFits s.params.handleW hd = true) (h : execInit hd s = .next t) : Good t := by
  obtain ⟨hp, hun, rfl⟩ | ⟨hp, rfl⟩ | ⟨hp, rfl⟩ := execInit_eq_next.1 h
  · split
    · refine Good.of_registers_eq (s := { s with tPhase := .i2, tArg := hd }) ?_ rfl
      exact hs.setTask (by simp [hp]) (by simp) (TaskOk.of_init (.inl rfl) ⟨hl, hun, hfits⟩)
    · refine Good.of_registers_eq (s := { s with tArg := hd }) ?_ rfl
      exact hs.setTask (by simp [hp]) (by simp [hp]) (TaskOk.of_idle hp)
  · exact initI2_good hs hp
  · exact initI3_good hs hp

theorem sendT2_good {s : State} (hs : Good s) (hp : s.tPhase = .t2) : Good (sendT2 s) := by
  have hend : Good { s with tPhase := .idle } := hs.endTask (by simp [hp])
  unfold sendT2
  split <;> exact hend.of_registers_eq rfl

theorem execSend_good {f : Frame} {s t : State} (hs : Good s) (hl : s.params.level = .driver)
    (h : execSend f s = .next t) : Good t := by
  obtain ⟨-, -, rfl⟩ | ⟨hp, hready, hvalid, rfl⟩ | ⟨hp, rfl⟩ := execSend_eq_next.1 h
  · exact hs.of_registers_eq rfl
  · exact hs.setTask (by simp [hp]) (by simp) (TaskOk.of_send rfl ⟨hl, hready, hvalid⟩)
  · exact sendT2_good hs hp

/-! ### Interrupt-domain operations -/

/-- A PUSH in progress at level DRIVER belongs to an RXIRQ, so the driver is Ready. -/
theorem Good.ready_of_push {s : State} (hs : Good s) (hp : s.iPhase ≠ .idle)
    (hl : s.params.level = .driver) : s.drvState = .ready :=
  hs.driver.handle_ready.1 (by rw [(hs.push.source hl hp).2]; rfl)

theorem pushReturn_good {out : Option Port} {ok : Bool} {s : State} (hs : Good s) :
    Good (pushReturn out ok s) := by
  rw [pushReturn_eq]
  exact hs.of_registers_eq rfl

/-- W1 to W4 at once (R80): refused for want of room, or written, passed and counted. -/
theorem pushWhole_good {out : Option Port} {f : Frame} {s t : State} (hs : Good s)
    (hp : s.iPhase = .idle)
    (hv : s.params.level = .driver → s.drvState = .ready ∧ validFrame f = true)
    (h : pushWhole out f s = .next t) : Good t := by
  obtain ⟨-, rfl⟩ | ⟨hroom, -, rfl⟩ := pushWhole_eq_next.1 h
  · exact pushReturn_good hs
  · have hhead := hs.queue.head_of_ne_w4 (by simp [hp])
    have hnext : nextIndex s.params.capacity s.head =
        (oldest s + (s.count + 1)) % s.params.capacity := by
      simp [nextIndex, hhead, Nat.add_assoc]
    have hwritten := hs.writeHead (.inl hp) hroom hv
    have hread := congrArg Option.isSome (hs.queue.read_written (by simp [hp]) f)
    exact pushReturn_good (hwritten.countUp hroom hread (fun hl => (hv hl).1) hnext hp)

/-- W1 (R80): full and over, or on to W2 with the frame latched. -/
theorem pushW1_good {out : Option Port} {f : Frame} {s : State} (hs : Good s)
    (hp : s.iPhase = .idle ∨ s.iPhase = .w1) (hpar : s.params.parallelDomains = true)
    (hv : s.params.level = .driver →
      s.drvState = .ready ∧ validFrame f = true ∧ s.handle = some s.iArg) :
    Good (pushW1 out f s) := by
  have hw4 : s.iPhase ≠ .w4 := by rcases hp with hp | hp <;> simp [hp]
  have hready (hl : s.params.level = .driver) : s.drvState = .ready := (hv hl).1
  obtain ⟨-, he⟩ | ⟨hc, he⟩ := pushW1_cases out f s <;> rw [he]
  · exact pushReturn_good (hs.setPush hw4 (by simp) hready (PushOk.of_idle rfl))
  · exact hs.setPush hw4 (by simp) hready
      { room := fun _ => lt_of_le_of_ne hs.queue.count_le hc
        frame := by simp
        parallel := fun _ => hpar
        source := fun hl _ => (hv hl).2 }

theorem pushResume_good {out : Option Port} {s t : State} (hs : Good s)
    (h : pushResume out s = .next t) : Good t := by
  have hready (hp : s.iPhase ≠ .idle) (hl : s.params.level = .driver) : s.drvState = .ready :=
    hs.ready_of_push hp hl
  obtain ⟨-, rfl⟩ | ⟨hp, rfl⟩ | ⟨hp, -, rfl⟩ | ⟨hp, rfl⟩ | ⟨hp, hroom, rfl⟩ := pushResume_eq_next.1 h
  · exact hs
  · have hi : s.iPhase ≠ .idle := by simp [hp]
    exact pushW1_good hs (.inr hp) (hs.push.parallel hi) fun hl =>
      ⟨hready hi hl, hs.push.source hl hi⟩
  · have hi : s.iPhase ≠ .idle := by simp [hp]
    have hroom := hs.push.room (.inl hp)
    have hwritten := hs.writeHead (f := s.iFrame) (.inr hp) hroom fun hl =>
      ⟨hready hi hl, (hs.push.source hl hi).1⟩
    exact hwritten.setPush (by simp [hp]) (by simp) (hready hi)
      { room := fun _ => hroom
        frame := fun _ => hs.queue.read_written (by simp [hp]) s.iFrame
        parallel := fun _ => hs.push.parallel hi
        source := fun hl _ => hs.push.source hl hi }
  · exact hs.advanceHead hp
  · have hhead : s.head = (oldest s + (s.count + 1)) % s.params.capacity := by
      simpa [pushLag, hp] using hs.queue.head_eq
    have hread := congrArg Option.isSome (hs.push.frame (.inr hp))
    exact pushReturn_good (hs.countUp hroom hread (hready (by simp [hp])) hhead rfl)

theorem execPush_good {f : Frame} {s t : State} (hs : Good s) (hl : s.params.level = .queue)
    (h : execPush f s = .next t) : Good t := by
  obtain ⟨hp, -, hwhole⟩ | ⟨hp, hpar, rfl⟩ | ⟨-, hresume⟩ := execPush_eq_next.1 h
  · exact pushWhole_good hs hp (by simp [hl]) hwhole
  · exact pushW1_good hs (.inl hp) hpar (by simp [hl])
  · exact pushResume_good hs hresume

/-- A received frame of a length up to 8 is valid: its identifier has as many bits as its format (R103). -/
theorem validFrame_translateRx {m : RxMessage} (h : rxDlcBad m.hdr = false) :
    validFrame (translateRx m) = true := by
  have hdlc : m.hdr.dlc.toNat ≤ 8 := Nat.not_lt.1 (of_decide_eq_false h)
  have hstd := m.hdr.stdId.isLt
  have hext := m.hdr.extId.isLt
  cases hide : m.hdr.ide <;>
    simp [validFrame, translateRx, hide, Config.dlcMax, Config.stdMax, Config.extMax] <;> omega

theorem rxDeliver_good {src : Handle} {r : Option RxMessage} {s t : State} (hs : Good s)
    (hp : s.iPhase = .idle) (hready : s.drvState = .ready) (hsrc : s.handle = some src)
    (h : rxDeliver src r s = .next t) : Good t := by
  obtain ⟨-, rfl⟩ | ⟨m, -, hdlc, ⟨-, hpush⟩ | ⟨hpar, rfl⟩⟩ := rxDeliver_eq_next.1 h
  · exact hs
  · exact pushWhole_good hs hp (fun _ => ⟨hready, validFrame_translateRx hdlc⟩) hpush
  · exact hs.setPush (by simp [hp]) (by simp) (fun _ => hready)
      { room := by simp
        frame := by simp
        parallel := fun _ => hpar
        source := fun _ _ => ⟨validFrame_translateRx hdlc, hsrc⟩ }

theorem execRxirq_good {src : Handle} {s t : State} (hs : Good s)
    (h : execRxirq src s = .next t) : Good t := by
  obtain ⟨-, -, rfl⟩ | ⟨hp, hready, hsrc, hdeliver⟩ | ⟨-, hresume⟩ := execRxirq_eq_next.1 h
  · exact hs
  · exact rxDeliver_good (s := (callGetRx src s).2) (hs.of_registers_eq rfl) hp hready hsrc hdeliver
  · exact pushResume_good hs hresume

/-! ### Steps -/

/-- An operation at its own level, with a handle that fits, keeps the invariant. -/
theorem exec_good {i : Instr} {s t : State} (hs : Good s) (hl : i.level = s.params.level)
    (hw : i.wellFormed s.params.handleW = true) (h : exec i s = .next t) : Good t := by
  cases i with
  | pop => exact execPop_good hs h
  | size => exact execSize_good hs h
  | recv => exact execRecv_good hs h
  | init hd => exact execInit_good hs hl.symm hw h
  | send f => exact execSend_good hs hl.symm h
  | push f => exact execPush_good hs hl.symm h
  | rxirq src => exact execRxirq_good hs h
  | errirq src =>
    rw [execErrirq_eq_next (src := src) |>.1 h]
    exact hs
  | boffirq src =>
    rw [execBoffirq_eq_next (src := src) |>.1 h]
    exact hs

/-- A word that decodes carries a handle of `HANDLE_W` bits (R66 b). -/
theorem wellFormed_of_decode {hw : Nat} {cw : CmdWord} {i : Instr} (h : decode hw cw = .ok i) :
    i.wellFormed hw = true := by
  have hN {j : Instr} (hj : j.wellFormed hw = true) (h : decodeN j cw = .ok i) :
      i.wellFormed hw = true := by
    unfold decodeN at h
    split at h <;> cases h
    exact hj
  have hH {mk : Handle → Instr} (hmk : ∀ a, (mk a).wellFormed hw = handleFits hw a)
      (h : decodeH hw mk cw = .ok i) : i.wellFormed hw = true := by
    unfold decodeH at h
    split at h <;> cases h
    rwa [hmk]
  have hF {mk : Frame → Instr} (hmk : ∀ f, (mk f).wellFormed hw = true)
      (h : decodeF mk cw = .ok i) : i.wellFormed hw = true := by
    unfold decodeF at h
    split at h <;> cases h
    exact hmk _
  unfold decode at h
  split at h
  · exact hN rfl h
  · exact hN rfl h
  · exact hN rfl h
  · exact hH (fun _ => rfl) h
  · exact hF (fun _ => rfl) h
  · exact hF (fun _ => rfl) h
  · exact hH (fun _ => rfl) h
  · exact hH (fun _ => rfl) h
  · exact hH (fun _ => rfl) h
  · cases h

/-- The task-domain operation in progress belongs to the block's level, and its handle fits. -/
theorem Good.taskInProgress_ok {s : State} (hs : Good s) {i : Instr} (h : taskInProgress s = some i) :
    i.level = s.params.level ∧ i.wellFormed s.params.handleW = true := by
  unfold taskInProgress at h
  cases hp : s.tPhase <;> simp only [hp, Option.some.injEq, reduceCtorEq] at h <;> subst h
  case p2 | p3 | p4 => cases hl : s.params.level <;> exact ⟨rfl, rfl⟩
  case i2 =>
    obtain ⟨hl, -, hfits⟩ := hs.task.init_phase (.inl hp)
    exact ⟨hl.symm, hfits⟩
  case i3 =>
    obtain ⟨hl, -, hfits⟩ := hs.task.init_phase (.inr hp)
    exact ⟨hl.symm, hfits⟩
  case t2 => exact ⟨(hs.task.send_phase hp).1.symm, rfl⟩

/-- The interrupt-domain operation in progress belongs to the block's level, and its handle fits. -/
theorem Good.interruptInProgress_ok {s : State} (hs : Good s) {i : Instr}
    (h : interruptInProgress s = some i) :
    i.level = s.params.level ∧ i.wellFormed s.params.handleW = true := by
  obtain ⟨hp, -⟩ := interruptInProgress_eq_some h
  unfold interruptInProgress at h
  cases hl : s.params.level with
  | queue =>
    simp only [hp, hl, if_false, if_true, Option.some.injEq] at h
    subst h
    exact ⟨rfl, rfl⟩
  | driver =>
    simp only [hp, hl, if_false, reduceCtorEq, Option.some.injEq] at h
    subst h
    have hfits := hs.driver.handle_fits
    rw [(hs.push.source hl hp).2] at hfits
    exact ⟨rfl, by simpa [Instr.wellFormed] using hfits⟩

/-- A good state only ever runs operations of its own level, with a handle that fits. -/
theorem Good.nextMove_ok {s : State} (hs : Good s) {i : Instr} {inputs : List Input}
    (h : nextMove s = .run i inputs) :
    i.level = s.params.level ∧ i.wellFormed s.params.handleW = true := by
  obtain ⟨agent, port, cw, -, hacc, -⟩ | hi | ht := nextMove_run h
  · obtain ⟨hdec, -, hl, -, -⟩ := accept_eq_ok.1 hacc
    exact ⟨hl, wellFormed_of_decode hdec⟩
  · exact hs.interruptInProgress_ok hi
  · exact hs.taskInProgress_ok ht

theorem step_good {s t : State} (hs : Good s) (h : step s = .next t) : Good t := by
  obtain ⟨i, inputs, hmove, hexec⟩ | ⟨inputs, -, rfl⟩ := step_eq_next.1 h
  · obtain ⟨hl, hw⟩ := hs.nextMove_ok hmove
    exact exec_good (s := { s with inputs := inputs }) (hs.of_registers_eq rfl) hl hw hexec
  · exact hs.of_registers_eq rfl

/-- Settles O35: the step runs an operation of the block's level whose handle fits, and each of its
micro-steps keeps `Good`, which is `Inv`. -/
theorem everyStepKeepsTheInvariant : Obligations.EveryStepKeepsTheInvariant :=
  fun _ _ hs h => inv_of_good (step_good (good_of_inv hs) h)

theorem construct_good {p : Params} (h : p.wf = true) : Good (State.construct p) :=
  have hpos : 0 < p.capacity := Params.capacity_pos h
  { params_wf := h
    tail_lt := hpos
    queue :=
      { slots_wf := Memory.wf_nil
        slots_lt := by simp [State.construct]
        oldest_lt := oldest_lt hpos
        count_le := Nat.zero_le _
        head_eq := (Nat.zero_mod _).symm
        written := fun k hk => absurd hk (Nat.not_lt_zero k) }
    task := TaskOk.of_idle rfl
    push := PushOk.of_idle rfl
    driver := by constructor <;> simp [State.construct] }

/-- Settles O34: an empty queue with nothing in progress and no handle is good. -/
theorem invariantHoldsAtReset : Obligations.InvariantHoldsAtReset :=
  ⟨fun _ hp => inv_of_good (construct_good hp), inv_of_good (construct_good (by decide))⟩

/-- Settles O33: `State.reset` is written out from R30's table. -/
theorem resetStateIsTheStatedOne : Obligations.ResetStateIsTheStatedOne := by
  unfold Obligations.ResetStateIsTheStatedOne
  decide

end Sys2Proof.Machine
end

