-- ==== Sys2Proof/Proofs/StateQueueView.lean ====
section
/-! Where the queue stands in its slots cannot be observed (10_state R30, R32): what each update does to the
abstract content, and from it that two blocks with the same view have the same outcome of every operation. -/

namespace Sys2Proof.Machine

/-! ### The content after each update -/

/-- What the `n` slots from `o` on hold, modulo the capacity (R32). -/
def framesFrom (c : Nat) (m : Memory) (o n : Nat) : List (Option Frame) :=
  (List.range n).map fun k => m.read ((o + k) % c)

/-- The content is what the `count` slots from the oldest frame on hold. -/
theorem contents_eq (s : State) :
    contents s = framesFrom s.params.capacity s.slots (oldest s) s.count := rfl

theorem framesFrom_succ (c : Nat) (m : Memory) (o n : Nat) :
    framesFrom c m o (n + 1) = framesFrom c m o n ++ [m.read ((o + n) % c)] := by
  simp [framesFrom, List.range_succ]

theorem framesFrom_succ_eq_cons {c o : Nat} (m : Memory) (n : Nat) (ho : o < c) :
    framesFrom c m o (n + 1) = m.read o :: framesFrom c m (nextIndex c o) n := by
  simp [framesFrom, List.range_succ_eq_map, Nat.mod_eq_of_lt ho, slot_nextIndex, Function.comp_def]

theorem framesFrom_write {c o n i : Nat} (m : Memory) (f : Frame) (h : ∀ k < n, (o + k) % c ≠ i) :
    framesFrom c (m.write i f) o n = framesFrom c m o n :=
  List.map_congr_left fun k hk => Memory.read_write_other m f (h k (List.mem_range.1 hk))

/-- The task-domain sequencer moves, but not into or out of P4: the content stays. -/
theorem contents_setTask {s : State} {p : TPhase} {f : Frame} {a : Handle} (hp : s.tPhase ≠ .p4)
    (hp' : p ≠ .p4) : contents { s with tPhase := p, tFrame := f, tArg := a } = contents s := by
  rw [contents_eq, contents_eq, oldest_of_ne_p4 hp', oldest_of_ne_p4 hp]

/-- W2 (R80, R84): a frame not yet counted is not part of the content. -/
theorem Good.contents_writeHead {s : State} (hs : Good s) (hp : s.iPhase ≠ .w4)
    (hroom : s.count < s.params.capacity) (f : Frame) :
    contents { s with slots := s.slots.write s.head f } = contents s :=
  framesFrom_write s.slots f fun _ hk => hs.queue.slot_ne_head hp hroom hk

/-- W4 (R80, R84): the frame behind the last one is counted. -/
theorem contents_countUp (s : State) :
    contents { s with count := s.count + 1 } =
      contents s ++ [s.slots.read ((oldest s + s.count) % s.params.capacity)] :=
  framesFrom_succ _ _ _ _

/-- PUSH with room (R80): its frame is the newest. -/
theorem Good.contents_push {s : State} (hs : Good s) (hp : s.iPhase ≠ .w4)
    (hroom : s.count < s.params.capacity) (f : Frame) :
    contents { s with slots := s.slots.write s.head f, count := s.count + 1 } =
      contents s ++ [some f] := by
  calc contents { s with slots := s.slots.write s.head f, count := s.count + 1 }
      = contents { s with slots := s.slots.write s.head f } ++
          [(s.slots.write s.head f).read ((oldest s + s.count) % s.params.capacity)] :=
        contents_countUp { s with slots := s.slots.write s.head f }
    _ = contents s ++ [some f] := by
        rw [hs.contents_writeHead hp hroom, hs.queue.read_written hp]

/-- A content that is not empty begins with the oldest frame. -/
theorem Good.contents_eq_cons {s : State} (hs : Good s) (hc : 1 ≤ s.count) :
    contents s = s.slots.read (oldest s) ::
      framesFrom s.params.capacity s.slots (nextIndex s.params.capacity (oldest s)) (s.count - 1) := by
  rw [contents_eq, ← framesFrom_succ_eq_cons _ _ hs.queue.oldest_lt, Nat.sub_add_cancel hc]

/-- P3 (R81, R84): `tail` advances before the frame leaves the content. -/
theorem Good.contents_advanceTail {s : State} (hs : Good s) (hp : s.tPhase = .p3) :
    contents { s with tail := nextIndex s.params.capacity s.tail, tPhase := .p4 } = contents s := by
  rw [contents_eq, contents_eq, oldest_of_p4 rfl, oldest_of_ne_p4 (s := s) (by simp [hp])]
  simp only [prevIndex_nextIndex hs.tail_lt]

/-- P4 (R81, R84): the frame that leaves is the one `t_frame` holds. -/
theorem Good.contents_countDown {s : State} (hs : Good s) (hp : s.tPhase = .p4) :
    contents s = some s.tFrame :: contents { s with count := s.count - 1, tPhase := .idle } := by
  rw [hs.contents_eq_cons (hs.task.pop_count (by simp [hp])), hs.task.pop_frame (.inr hp),
    ← tail_eq_of_p4 hs.tail_lt hp]
  rfl

/-! ### The same block with its queue elsewhere -/

/-- The block with its queue in other slots. -/
abbrev State.placed (s : State) (m : Memory) (h l : Nat) : State :=
  { s with slots := m, head := h, tail := l }

theorem callCfgFilter_placed (s : State) (m : Memory) (h l : Nat) (hd : Handle) (flt : Filter) :
    callCfgFilter hd flt (s.placed m h l) =
      ((callCfgFilter hd flt s).1, (callCfgFilter hd flt s).2.placed m h l) := rfl

theorem callStart_placed (s : State) (m : Memory) (h l : Nat) (hd : Handle) :
    callStart hd (s.placed m h l) = ((callStart hd s).1, (callStart hd s).2.placed m h l) := rfl

theorem callActNotify_placed (s : State) (m : Memory) (h l : Nat) (hd : Handle) (cats : List Notification) :
    callActNotify hd cats (s.placed m h l) =
      ((callActNotify hd cats s).1, (callActNotify hd cats s).2.placed m h l) := rfl

/-- Two outcomes no port can tell apart: both go on to the same view, or both are refused for the same
reason. -/
inductive SameOutcome : Host.Outcome State Fault Refusal → Host.Outcome State Fault Refusal → Prop
  | next {s t : State} (h : SameView s t) : SameOutcome (.next s) (.next t)
  | refused (r : Refusal) : SameOutcome (.refused r) (.refused r)

theorem SameOutcome.of_next {a b : Host.Outcome State Fault Refusal} {s t : State}
    (ha : a = .next s) (hb : b = .next t) (h : SameView s t) : SameOutcome a b := by
  rw [ha, hb]
  exact .next h

section
variable {s : State} {m : Memory} {h l : Nat}

/-- Any change outside the queue keeps the view. -/
theorem sameView_placed {u v : State} (hc : contents s = contents (s.placed m h l))
    (hp : s.tPhase ≠ .p4) (hp' : u.tPhase ≠ .p4) (hparams : u.params = s.params)
    (hslots : u.slots = s.slots) (htail : u.tail = s.tail) (hcount : u.count = s.count)
    (hv : v = u.placed m h l) : SameView u v := by
  subst hv
  refine ⟨rfl, ?_⟩
  simpa [contents_eq, oldest, hp, hp', hparams, hslots, htail, hcount] using hc

/-- P2 (R81) reads the same frame wherever the queue stands. -/
theorem Good.read_tail_placed (hs : Good s) (ht : Good (s.placed m h l))
    (hc : contents s = contents (s.placed m h l)) (hp : s.tPhase = .p2) :
    ∃ f, s.slots.read s.tail = some f ∧ m.read l = some f := by
  have hcount : 1 ≤ s.count := hs.task.pop_count (.inl hp)
  rw [hs.contents_eq_cons hcount, ht.contents_eq_cons hcount] at hc
  have hread : s.slots.read (oldest s) = m.read (oldest (s.placed m h l)) := (List.cons.inj hc).1
  have hsome := hs.queue.written 0 hcount
  rw [Nat.add_zero, Nat.mod_eq_of_lt hs.queue.oldest_lt, oldest_of_ne_p4 (by simp [hp])] at hsome
  rw [oldest_of_ne_p4 (by simp [hp]), oldest_of_ne_p4 (by simp [hp])] at hread
  obtain ⟨f, hf⟩ := Option.isSome_iff_exists.1 hsome
  exact ⟨f, hf, hread ▸ hf⟩

theorem popResume_placed {out : Port} (hs : Good s) (ht : Good (s.placed m h l))
    (hc : contents s = contents (s.placed m h l)) :
    SameOutcome (popResume out s) (popResume out (s.placed m h l)) := by
  cases hp : s.tPhase
  case p2 =>
    obtain ⟨f, hf, hf'⟩ := hs.read_tail_placed ht hc hp
    exact .of_next (popResume_eq_next.2 (.inl ⟨hp, hs.tail_lt, f, hf, rfl⟩))
      (popResume_eq_next.2 (.inl ⟨hp, ht.tail_lt, f, hf', rfl⟩))
      (sameView_placed hc (by simp [hp]) (by simp) rfl rfl rfl rfl rfl)
  case p3 =>
    exact .of_next (popResume_eq_next.2 (.inr (.inl ⟨hp, rfl⟩)))
      (popResume_eq_next.2 (.inr (.inl ⟨hp, rfl⟩)))
      ⟨rfl, (hs.contents_advanceTail hp).trans (hc.trans (ht.contents_advanceTail hp).symm)⟩
  case p4 =>
    have hcount : 1 ≤ s.count := hs.task.pop_count (by simp [hp])
    rw [hs.contents_countDown hp, ht.contents_countDown hp] at hc
    exact .of_next (popResume_eq_next.2 (.inr (.inr ⟨hp, hcount, rfl⟩)))
      (popResume_eq_next.2 (.inr (.inr ⟨hp, hcount, rfl⟩))) ⟨rfl, (List.cons.inj hc).2⟩
  case idle | i2 | i3 | t2 =>
    simp only [popResume, hp]
    exact .refused _

theorem popP1_placed {out : Port} (hc : contents s = contents (s.placed m h l))
    (hp : s.tPhase = .idle) : SameView (popP1 out s) (popP1 out (s.placed m h l)) := by
  unfold popP1 queueEmpty
  split
  · exact sameView_placed hc (by simp [hp]) (by simp [hp]) rfl rfl rfl rfl rfl
  · exact sameView_placed hc (by simp [hp]) (by simp) rfl rfl rfl rfl rfl

theorem execPop_placed (hs : Good s) (ht : Good (s.placed m h l))
    (hc : contents s = contents (s.placed m h l)) :
    SameOutcome (execPop s) (execPop (s.placed m h l)) := by
  unfold execPop
  split
  · next hp => exact .next (popP1_placed hc hp)
  · exact popResume_placed hs ht hc

theorem execSize_placed (hc : contents s = contents (s.placed m h l)) :
    SameOutcome (execSize s) (execSize (s.placed m h l)) := by
  unfold execSize
  split
  · next hp => exact .next (sameView_placed hc (by simp [hp]) (by simp [hp]) rfl rfl rfl rfl rfl)
  · exact .refused _

theorem execRecv_placed (hs : Good s) (ht : Good (s.placed m h l))
    (hc : contents s = contents (s.placed m h l)) :
    SameOutcome (execRecv s) (execRecv (s.placed m h l)) := by
  unfold execRecv driverReady
  split
  · next hp =>
    refine .next ?_
    split
    · exact popP1_placed hc hp
    · exact sameView_placed hc (by simp [hp]) (by simp [hp]) rfl rfl rfl rfl rfl
  · exact popResume_placed hs ht hc

theorem initI1_placed {hd : Handle} (hc : contents s = contents (s.placed m h l))
    (hp : s.tPhase = .idle) : SameOutcome (initI1 hd s) (initI1 hd (s.placed m h l)) := by
  unfold initI1 driverReady
  split
  · exact .refused _
  · refine .next ?_
    rw [callCfgFilter_placed { s with tArg := hd } m h l]
    dsimp only
    split
    · exact sameView_placed hc (by simp [hp]) (by simp) rfl rfl rfl rfl rfl
    · exact sameView_placed hc (by simp [hp]) (by simp [hp]) rfl rfl rfl rfl rfl

theorem initI2_placed (hc : contents s = contents (s.placed m h l))
    (hp : s.tPhase = .i2) : SameView (initI2 s) (initI2 (s.placed m h l)) := by
  rw [initI2_eq, initI2_eq]
  rw [callStart_placed s m h l]
  dsimp only
  split <;> exact sameView_placed hc (by simp [hp]) (by simp) rfl rfl rfl rfl rfl

theorem initI3_placed (hc : contents s = contents (s.placed m h l))
    (hp : s.tPhase = .i3) : SameView (initI3 s) (initI3 (s.placed m h l)) := by
  rw [initI3_eq, initI3_eq]
  rw [callActNotify_placed s m h l]
  dsimp only
  split <;> exact sameView_placed hc (by simp [hp]) (by simp) rfl rfl rfl rfl rfl

theorem execInit_placed {hd : Handle} (hc : contents s = contents (s.placed m h l)) :
    SameOutcome (execInit hd s) (execInit hd (s.placed m h l)) := by
  unfold execInit
  cases hp : s.tPhase
  case idle => exact initI1_placed hc hp
  case i2 => exact .next (initI2_placed hc hp)
  case i3 => exact .next (initI3_placed hc hp)
  case p2 | p3 | p4 | t2 => exact .refused _

theorem sendT1_placed {f : Frame} (hc : contents s = contents (s.placed m h l))
    (hp : s.tPhase = .idle) : SameView (sendT1 f s) (sendT1 f (s.placed m h l)) := by
  unfold sendT1 driverReady
  split
  · exact sameView_placed hc (by simp [hp]) (by simp) rfl rfl rfl rfl rfl
  · exact sameView_placed hc (by simp [hp]) (by simp [hp]) rfl rfl rfl rfl rfl

theorem sendT2_placed (hc : contents s = contents (s.placed m h l))
    (hp : s.tPhase = .t2) : SameView (sendT2 s) (sendT2 (s.placed m h l)) := by
  have hhandle : (s.placed m h l).handle = s.handle := rfl
  unfold sendT2
  rw [hhandle]
  split <;> exact sameView_placed hc (by simp [hp]) (by simp) rfl rfl rfl rfl rfl

theorem execSend_placed {f : Frame} (hc : contents s = contents (s.placed m h l)) :
    SameOutcome (execSend f s) (execSend f (s.placed m h l)) := by
  unfold execSend
  cases hp : s.tPhase
  case idle => exact .next (sendT1_placed hc hp)
  case t2 => exact .next (sendT2_placed hc hp)
  case p2 | p3 | p4 | i2 | i3 => exact .refused _

/-- PUSH returns the same response wherever the queue stands. -/
theorem sameView_pushReturn {out : Option Port} {ok : Bool} {u v : State} (huv : SameView u v) :
    SameView (pushReturn out ok u) (pushReturn out ok v) := by
  obtain ⟨hv, hc⟩ := huv
  rw [hv] at hc ⊢
  rw [pushReturn_eq, pushReturn_eq]
  exact ⟨rfl, hc⟩

theorem pushWhole_placed {out : Option Port} {f : Frame} (hs : Good s) (ht : Good (s.placed m h l))
    (hc : contents s = contents (s.placed m h l)) (hp : s.iPhase = .idle) :
    SameOutcome (pushWhole out f s) (pushWhole out f (s.placed m h l)) := by
  rcases hs.queue.count_le.eq_or_lt with hfull | hroom
  · exact .of_next (pushWhole_eq_next.2 (.inl ⟨hfull, rfl⟩)) (pushWhole_eq_next.2 (.inl ⟨hfull, rfl⟩))
      (sameView_pushReturn ⟨rfl, hc⟩)
  · refine .of_next (pushWhole_eq_next.2 (.inr ⟨hroom, hs.queue.head_lt, rfl⟩))
      (pushWhole_eq_next.2 (.inr ⟨hroom, ht.queue.head_lt, rfl⟩)) (sameView_pushReturn ⟨rfl, ?_⟩)
    calc _ = contents s ++ [some f] := hs.contents_push (by simp [hp]) hroom f
      _ = contents (s.placed m h l) ++ [some f] := by rw [hc]
      _ = _ := (ht.contents_push (by simp [hp]) hroom f).symm

theorem pushW1_placed {out : Option Port} {f : Frame} (hc : contents s = contents (s.placed m h l)) :
    SameView (pushW1 out f s) (pushW1 out f (s.placed m h l)) := by
  unfold pushW1 queueFull
  split
  · exact sameView_pushReturn ⟨rfl, hc⟩
  · exact ⟨rfl, hc⟩

theorem pushResume_placed {out : Option Port} (hs : Good s) (ht : Good (s.placed m h l))
    (hc : contents s = contents (s.placed m h l)) :
    SameOutcome (pushResume out s) (pushResume out (s.placed m h l)) := by
  cases hp : s.iPhase
  case idle =>
    simp only [pushResume, hp]
    exact .next ⟨rfl, hc⟩
  case w1 =>
    simp only [pushResume, hp]
    exact .next (pushW1_placed hc)
  case w2 =>
    have hroom : s.count < s.params.capacity := hs.push.room (by simp [hp])
    refine .of_next (pushResume_eq_next.2 (.inr (.inr (.inl ⟨hp, hs.queue.head_lt, rfl⟩))))
      (pushResume_eq_next.2 (.inr (.inr (.inl ⟨hp, ht.queue.head_lt, rfl⟩)))) ⟨rfl, ?_⟩
    calc _ = contents s := hs.contents_writeHead (by simp [hp]) hroom _
      _ = contents (s.placed m h l) := hc
      _ = _ := (ht.contents_writeHead (by simp [hp]) hroom _).symm
  case w3 =>
    simp only [pushResume, hp]
    exact .next ⟨rfl, hc⟩
  case w4 =>
    have hroom : s.count < s.params.capacity := hs.push.room (by simp [hp])
    refine .of_next (pushResume_eq_next.2 (.inr (.inr (.inr (.inr ⟨hp, hroom, rfl⟩)))))
      (pushResume_eq_next.2 (.inr (.inr (.inr (.inr ⟨hp, hroom, rfl⟩)))))
      (sameView_pushReturn ⟨rfl, ?_⟩)
    calc _ = contents s ++ [some s.iFrame] := hs.push.frame (.inr hp) ▸ contents_countUp s
      _ = contents (s.placed m h l) ++ [some s.iFrame] := by rw [hc]
      _ = _ := (ht.push.frame (.inr hp) ▸ contents_countUp (s.placed m h l)).symm

theorem execPush_placed {f : Frame} (hs : Good s) (ht : Good (s.placed m h l))
    (hc : contents s = contents (s.placed m h l)) :
    SameOutcome (execPush f s) (execPush f (s.placed m h l)) := by
  unfold execPush
  cases hp : s.iPhase
  case idle =>
    dsimp only
    split
    · exact .next (pushW1_placed hc)
    · exact pushWhole_placed hs ht hc hp
  case w1 | w2 | w3 | w4 => exact pushResume_placed hs ht hc

theorem rxDeliver_placed {src : Handle} {r : Option RxMessage} (hs : Good s)
    (ht : Good (s.placed m h l)) (hc : contents s = contents (s.placed m h l))
    (hp : s.iPhase = .idle) :
    SameOutcome (rxDeliver src r s) (rxDeliver src r (s.placed m h l)) := by
  unfold rxDeliver
  cases r with
  | none => exact .next ⟨rfl, hc⟩
  | some msg =>
    dsimp only
    split
    · exact .refused _
    · split
      · exact .next ⟨rfl, hc⟩
      · exact pushWhole_placed hs ht hc hp

theorem execRxirq_placed {src : Handle} (hs : Good s) (ht : Good (s.placed m h l))
    (hc : contents s = contents (s.placed m h l)) :
    SameOutcome (execRxirq src s) (execRxirq src (s.placed m h l)) := by
  unfold execRxirq rxFetch driverReady handleMatches
  cases hp : s.iPhase
  case idle =>
    dsimp only
    split
    · exact rxDeliver_placed (s := (callGetRx src s).2) (hs.of_registers_eq rfl)
        (ht.of_registers_eq rfl) hc hp
    · exact .next ⟨rfl, hc⟩
  case w1 | w2 | w3 | w4 => exact pushResume_placed hs ht hc

/-- Every operation has the same outcome wherever the queue stands. -/
theorem exec_placed (i : Instr) (hs : Good s) (ht : Good (s.placed m h l))
    (hc : contents s = contents (s.placed m h l)) :
    SameOutcome (exec i s) (exec i (s.placed m h l)) := by
  cases i with
  | pop => exact execPop_placed hs ht hc
  | size => exact execSize_placed hc
  | recv => exact execRecv_placed hs ht hc
  | init hd => exact execInit_placed hc
  | send f => exact execSend_placed hc
  | push f => exact execPush_placed hs ht hc
  | rxirq src => exact execRxirq_placed hs ht hc
  | errirq src => exact .next ⟨rfl, hc⟩
  | boffirq src => exact .next ⟨rfl, hc⟩

/-- What the next step runs does not depend on where the queue stands, nor does its outcome. -/
theorem step_placed (hs : Good s) (ht : Good (s.placed m h l))
    (hc : contents s = contents (s.placed m h l)) :
    SameOutcome (step s) (step (s.placed m h l)) := by
  have hmove : nextMove (s.placed m h l) = nextMove s := rfl
  unfold step
  rw [hmove]
  cases nextMove s with
  | run i inputs =>
    exact exec_placed (s := { s with inputs := inputs }) i (hs.of_registers_eq rfl)
      (ht.of_registers_eq rfl) hc
  | refuse r => exact .refused r
  | rest inputs => exact .next ⟨rfl, hc⟩

end

/-- Two good states with the same view have the same outcome of a step. -/
theorem step_sameOutcome {s t : State} (hs : Good s) (ht : Good t) (h : SameView s t) :
    SameOutcome (step s) (step t) := by
  obtain ⟨hplaced, hc⟩ := h
  rw [hplaced] at ht hc ⊢
  exact step_placed hs ht hc

/-- Settles O51: the two outcomes are the same one by `step_sameOutcome`, read off in both directions. -/
theorem queuePositionIsUnobservable : Obligations.QueuePositionIsUnobservable := by
  intro s t hs ht hview
  have hsame := step_sameOutcome (good_of_inv hs) (good_of_inv ht) hview
  constructor
  · intro s' hstep
    rw [hstep] at hsame
    generalize step t = o at hsame
    cases hsame with
    | next h => exact ⟨_, rfl, h⟩
  · intro r hstep
    rw [hstep] at hsame
    generalize step t = o at hsame
    cases hsame
    rfl

end Sys2Proof.Machine
end

