-- ==== Sys2Proof/Proofs/StateFrames.lean ====
section
/-! What an operation of each domain leaves alone (10_state R21, 60_exceptions R124, R127), and what follows
for the driver's registers (R24, R93) and the queue relation (R18). -/

namespace Sys2Proof.Machine

/-! ### Interrupt domain -/

/-- The fields an interrupt-domain operation can write are listed; of the slots only `head`'s changes, and
`count` does not fall (R100, R124). -/
def InterruptFrame (s t : State) : Prop :=
  t = { s with
    slots := t.slots, head := t.head, count := t.count, iPhase := t.iPhase, iFrame := t.iFrame,
    iArg := t.iArg, env := t.env, draws := t.draws, responses := t.responses, calls := t.calls } ∧
  s.count ≤ t.count ∧
  ∀ j, j ≠ s.head → t.slots.read j = s.slots.read j

theorem InterruptFrame.refl (s : State) : InterruptFrame s s := ⟨rfl, le_rfl, fun _ _ => rfl⟩

theorem pushW1_interruptFrame (out : Option Port) (f : Frame) (s : State) :
    InterruptFrame s (pushW1 out f s) := by
  obtain ⟨-, he⟩ | ⟨-, he⟩ := pushW1_cases out f s <;> rw [he]
  · rw [pushReturn_eq]
    exact ⟨rfl, le_rfl, fun _ _ => rfl⟩
  · exact ⟨rfl, le_rfl, fun _ _ => rfl⟩

theorem pushWhole_interruptFrame {out : Option Port} {f : Frame} {s t : State}
    (h : pushWhole out f s = .next t) : InterruptFrame s t := by
  obtain ⟨-, rfl⟩ | ⟨-, -, rfl⟩ := pushWhole_eq_next.1 h <;> rw [pushReturn_eq]
  · exact ⟨rfl, le_rfl, fun _ _ => rfl⟩
  · exact ⟨rfl, Nat.le_succ _, fun _ hj => Memory.read_write_other _ _ hj⟩

theorem pushResume_interruptFrame {out : Option Port} {s t : State}
    (h : pushResume out s = .next t) : InterruptFrame s t := by
  obtain ⟨-, rfl⟩ | ⟨-, rfl⟩ | ⟨-, -, rfl⟩ | ⟨-, rfl⟩ | ⟨-, -, rfl⟩ := pushResume_eq_next.1 h
  · exact .refl _
  · exact pushW1_interruptFrame _ _ _
  · exact ⟨rfl, le_rfl, fun _ hj => Memory.read_write_other _ _ hj⟩
  · exact ⟨rfl, le_rfl, fun _ _ => rfl⟩
  · rw [pushReturn_eq]
    exact ⟨rfl, Nat.le_succ _, fun _ _ => rfl⟩

theorem execPush_interruptFrame {f : Frame} {s t : State} (h : execPush f s = .next t) :
    InterruptFrame s t := by
  obtain ⟨-, -, hwhole⟩ | ⟨-, -, rfl⟩ | ⟨-, hresume⟩ := execPush_eq_next.1 h
  · exact pushWhole_interruptFrame hwhole
  · exact pushW1_interruptFrame _ _ _
  · exact pushResume_interruptFrame hresume

theorem rxDeliver_interruptFrame {src : Handle} {r : Option RxMessage} {s t : State}
    (h : rxDeliver src r s = .next t) : InterruptFrame s t := by
  obtain ⟨-, rfl⟩ | ⟨m, -, -, ⟨-, hpush⟩ | ⟨-, rfl⟩⟩ := rxDeliver_eq_next.1 h
  · exact .refl _
  · exact pushWhole_interruptFrame hpush
  · exact ⟨rfl, le_rfl, fun _ _ => rfl⟩

theorem execRxirq_interruptFrame {src : Handle} {s t : State} (h : execRxirq src s = .next t) :
    InterruptFrame s t := by
  obtain ⟨-, -, rfl⟩ | ⟨-, -, -, hdeliver⟩ | ⟨-, hresume⟩ := execRxirq_eq_next.1 h
  · exact .refl _
  · obtain ⟨ht, hcount, hread⟩ := rxDeliver_interruptFrame hdeliver
    exact ⟨ht, hcount, hread⟩
  · exact pushResume_interruptFrame hresume

/-- Every interrupt-domain operation keeps its frame. -/
theorem exec_interruptFrame {i : Instr} {s t : State} (hi : i.domain = .interrupt)
    (h : exec i s = .next t) : InterruptFrame s t := by
  cases i with
  | push f => exact execPush_interruptFrame h
  | rxirq src => exact execRxirq_interruptFrame h
  | errirq src =>
    rw [execErrirq_eq_next (src := src) |>.1 h]
    exact .refl _
  | boffirq src =>
    rw [execBoffirq_eq_next (src := src) |>.1 h]
    exact .refl _
  | pop | size | recv | init | send => cases hi

/-- Settles O47: `exec_interruptFrame`, field by field. -/
theorem interruptDomainFrame : Obligations.InterruptDomainFrame := by
  intro s t i hi h
  obtain ⟨ht, hcount, hread⟩ := exec_interruptFrame hi h
  refine ⟨?_, ?_, ?_, ?_, ?_, ?_, ?_, ?_, hcount, hread⟩ <;> rw [ht]

/-! ### Task domain -/

/-- The fields a task-domain operation can write are listed, and `count` does not rise (R21, R127). -/
def TaskFrame (s t : State) : Prop :=
  t = { s with
    tail := t.tail, count := t.count, drvState := t.drvState, handle := t.handle, tPhase := t.tPhase,
    tFrame := t.tFrame, tArg := t.tArg, env := t.env, draws := t.draws, responses := t.responses,
    calls := t.calls } ∧
  t.count ≤ s.count

/-- POP, SIZE and RECV write fewer fields still: none of the driver's and none of the P-port (R92). -/
def ConsumerFrame (s t : State) : Prop :=
  t = { s with
    tail := t.tail, count := t.count, tPhase := t.tPhase, tFrame := t.tFrame,
    responses := t.responses } ∧
  t.count ≤ s.count

theorem ConsumerFrame.taskFrame {s t : State} (h : ConsumerFrame s t) : TaskFrame s t := by
  obtain ⟨ht, hcount⟩ := h
  refine ⟨?_, hcount⟩
  rw [ht]

theorem popResume_consumerFrame {out : Port} {s t : State} (h : popResume out s = .next t) :
    ConsumerFrame s t := by
  obtain ⟨-, -, f, -, rfl⟩ | ⟨-, rfl⟩ | ⟨-, -, rfl⟩ := popResume_eq_next.1 h
  · exact ⟨rfl, le_rfl⟩
  · exact ⟨rfl, le_rfl⟩
  · exact ⟨rfl, Nat.sub_le _ _⟩

theorem execPop_consumerFrame {s t : State} (h : execPop s = .next t) : ConsumerFrame s t := by
  obtain ⟨-, -, rfl⟩ | ⟨-, -, rfl⟩ | hresume := execPop_eq_next.1 h
  · exact ⟨rfl, le_rfl⟩
  · exact ⟨rfl, le_rfl⟩
  · exact popResume_consumerFrame hresume

theorem execSize_consumerFrame {s t : State} (h : execSize s = .next t) : ConsumerFrame s t := by
  obtain ⟨-, rfl⟩ := execSize_eq_next.1 h
  exact ⟨rfl, le_rfl⟩

theorem execRecv_consumerFrame {s t : State} (h : execRecv s = .next t) : ConsumerFrame s t := by
  obtain ⟨-, -, rfl⟩ | ⟨-, -, -, rfl⟩ | hresume := execRecv_eq_next.1 h
  · exact ⟨rfl, le_rfl⟩
  · exact ⟨rfl, le_rfl⟩
  · exact popResume_consumerFrame hresume

/-- Every operation that reads the queue keeps the narrower frame. -/
theorem exec_consumerFrame {i : Instr} {s t : State} (hi : i = .pop ∨ i = .size ∨ i = .recv)
    (h : exec i s = .next t) : ConsumerFrame s t := by
  obtain rfl | rfl | rfl := hi
  · exact execPop_consumerFrame h
  · exact execSize_consumerFrame h
  · exact execRecv_consumerFrame h

theorem initI2_taskFrame (s : State) : TaskFrame s (initI2 s) := by
  rw [initI2_eq]
  split <;> exact ⟨rfl, le_rfl⟩

theorem initI3_taskFrame (s : State) : TaskFrame s (initI3 s) := by
  rw [initI3_eq]
  dsimp only
  split <;> exact ⟨rfl, le_rfl⟩

theorem execInit_taskFrame {hd : Handle} {s t : State} (h : execInit hd s = .next t) :
    TaskFrame s t := by
  obtain ⟨-, -, rfl⟩ | ⟨-, rfl⟩ | ⟨-, rfl⟩ := execInit_eq_next.1 h
  · split <;> exact ⟨rfl, le_rfl⟩
  · exact initI2_taskFrame s
  · exact initI3_taskFrame s

theorem sendT2_taskFrame (s : State) : TaskFrame s (sendT2 s) := by
  unfold sendT2
  split <;> exact ⟨rfl, le_rfl⟩

theorem execSend_taskFrame {f : Frame} {s t : State} (h : execSend f s = .next t) :
    TaskFrame s t := by
  obtain ⟨-, -, rfl⟩ | ⟨-, -, -, rfl⟩ | ⟨-, rfl⟩ := execSend_eq_next.1 h
  · exact ⟨rfl, le_rfl⟩
  · exact ⟨rfl, le_rfl⟩
  · exact sendT2_taskFrame s

/-- Every task-domain operation keeps its frame. -/
theorem exec_taskFrame {i : Instr} {s t : State} (hi : i.domain = .task) (h : exec i s = .next t) :
    TaskFrame s t := by
  cases i with
  | pop => exact (execPop_consumerFrame h).taskFrame
  | size => exact (execSize_consumerFrame h).taskFrame
  | recv => exact (execRecv_consumerFrame h).taskFrame
  | init hd => exact execInit_taskFrame h
  | send f => exact execSend_taskFrame h
  | push | rxirq | errirq | boffirq => cases hi

/-- Settles O48: `exec_taskFrame` and `exec_consumerFrame`, field by field. -/
theorem taskDomainFrame : Obligations.TaskDomainFrame := by
  intro s t i hi h
  obtain ⟨ht, hcount⟩ := exec_taskFrame hi h
  have hdriver (hc : i = .pop ∨ i = .size ∨ i = .recv) :
      t.drvState = s.drvState ∧ t.handle = s.handle ∧ t.tArg = s.tArg ∧
      t.calls = s.calls ∧ t.env = s.env ∧ t.draws = s.draws := by
    obtain ⟨hconsumer, -⟩ := exec_consumerFrame hc h
    refine ⟨?_, ?_, ?_, ?_, ?_, ?_⟩ <;> rw [hconsumer]
  refine ⟨?_, ?_, ?_, ?_, ?_, ?_, ?_, hcount, hdriver⟩ <;> rw [ht]

/-! ### The driver's registers -/

/-- Only I3 writes the driver's registers (R90, R93). -/
theorem exec_driver_cases {i : Instr} {s t : State} (h : exec i s = .next t) :
    (t.drvState = s.drvState ∧ t.handle = s.handle) ∨ (s.tPhase = .i3 ∧ t = initI3 s) := by
  have hconsumer (hi : i = .pop ∨ i = .size ∨ i = .recv) :
      t.drvState = s.drvState ∧ t.handle = s.handle := by
    obtain ⟨ht, -⟩ := exec_consumerFrame hi h
    constructor <;> rw [ht]
  have hinterrupt (hi : i.domain = .interrupt) : t.drvState = s.drvState ∧ t.handle = s.handle := by
    obtain ⟨ht, -, -⟩ := exec_interruptFrame hi h
    constructor <;> rw [ht]
  cases i with
  | pop => exact .inl (hconsumer (by simp))
  | size => exact .inl (hconsumer (by simp))
  | recv => exact .inl (hconsumer (by simp))
  | push f => exact .inl (hinterrupt rfl)
  | rxirq src => exact .inl (hinterrupt rfl)
  | errirq src => exact .inl (hinterrupt rfl)
  | boffirq src => exact .inl (hinterrupt rfl)
  | init hd =>
    obtain ⟨-, -, rfl⟩ | ⟨-, rfl⟩ | ⟨hp, rfl⟩ := execInit_eq_next.1 h
    · left
      split <;> exact ⟨rfl, rfl⟩
    · left
      rw [initI2_eq]
      split <;> exact ⟨rfl, rfl⟩
    · exact .inr ⟨hp, rfl⟩
  | send f =>
    left
    obtain ⟨-, -, rfl⟩ | ⟨-, -, -, rfl⟩ | ⟨-, rfl⟩ := execSend_eq_next.1 h
    · exact ⟨rfl, rfl⟩
    · exact ⟨rfl, rfl⟩
    · unfold sendT2
      split <;> exact ⟨rfl, rfl⟩

/-- I3 answered false changes neither register; answered true it commits both and says so (R90). -/
theorem initI3_driver_cases (s : State) :
    ((initI3 s).drvState = s.drvState ∧ (initI3 s).handle = s.handle) ∨
    ((initI3 s).drvState = .ready ∧ (initI3 s).handle = some s.tArg ∧
      (takeAnswer s.env.actNotify Config.freeAck s.draws).1 = true ∧
      (initI3 s).responses = s.responses ++ [(.t, .rb 1)]) := by
  rw [initI3_eq]
  dsimp only
  split
  · next hok => exact .inr ⟨rfl, rfl, hok, rfl⟩
  · exact .inl ⟨rfl, rfl⟩

/-- What a step does to the driver's registers: nothing, or it is an INIT's I3 answered true. -/
theorem step_driver_cases {s t : State} (h : step s = .next t) :
    (t.drvState = s.drvState ∧ t.handle = s.handle) ∨
    (s.tPhase = .i3 ∧ t.drvState = .ready ∧ t.handle = some s.tArg ∧
      (takeAnswer s.env.actNotify Config.freeAck s.draws).1 = true ∧
      t.responses = s.responses ++ [(.t, .rb 1)]) := by
  obtain ⟨i, inputs, -, hexec⟩ | ⟨inputs, -, rfl⟩ := step_eq_next.1 h
  · obtain hkeep | ⟨hp, rfl⟩ := exec_driver_cases hexec
    · exact .inl hkeep
    · exact (initI3_driver_cases { s with inputs := inputs }).imp_right fun hcommit => ⟨hp, hcommit⟩
  · exact .inl ⟨rfl, rfl⟩

/-- Settles O45: a step writes the driver's registers only at an I3 answered true, which the invariant
places in Uninitialized. -/
theorem readyIsReachedOnlyByInitAndForever : Obligations.ReadyIsReachedOnlyByInitAndForever := by
  refine ⟨rfl, rfl, fun d => by cases d <;> simp, fun s t hinv h => ?_⟩
  have hs := good_of_inv hinv
  obtain ⟨hd, hh⟩ | ⟨hp, hd, hh, hok, hresp⟩ := step_driver_cases h
  · refine ⟨fun hready => ⟨hd.trans hready, hh⟩, fun hun => .inl ⟨hd.trans hun, ?_⟩⟩
    have hnone : s.handle.isSome ≠ true := fun hsome => by
      simp [hs.driver.handle_ready.1 hsome] at hun
    rw [hh]
    simpa using hnone
  · obtain ⟨-, hun, -⟩ := hs.task.init_phase (.inr hp)
    exact ⟨fun hready => by simp [hun] at hready, fun _ => .inr ⟨hd, hh, hp, hok, hresp⟩⟩

/-! ### The queue relation -/

/-- Settles O38: the relation is `QueueAt.head_eq`, counted from `tail` at a quiescent point and from the
slot behind it between P3 and P4. -/
theorem queueRelationHolds : Obligations.QueueRelationHolds := by
  intro s hinv
  have hs := good_of_inv hinv
  constructor
  · rintro ⟨hidle, hi⟩
    have hold : oldest s = s.tail := oldest_of_ne_p4 (by simp [hidle])
    refine ⟨hs.queue.count_le, hs.queue.head_lt, hs.tail_lt, ?_, fun k hk => ?_, contents_length s⟩
    · rw [← hold]
      exact hs.queue.head_of_ne_w4 (by simp [hi])
    · obtain ⟨f, hf⟩ := Option.isSome_iff_exists.1 (hs.queue.written k hk)
      refine ⟨f, hold ▸ hf, ?_⟩
      simp [contents, hk, hf]
  · intro hp hw4
    have hcount : 1 ≤ s.count := hs.task.pop_count (by simp [hp])
    calc s.head = (oldest s + (s.count - 1 + 1)) % s.params.capacity := by
          rw [Nat.sub_add_cancel hcount]
          exact hs.queue.head_of_ne_w4 hw4
      _ = (s.tail + (s.count - 1)) % s.params.capacity := by
          simpa [popLag, hp] using (tail_slot hs.tail_lt (s.count - 1)).symm
      _ = (s.tail + s.count - 1) % s.params.capacity := by rw [Nat.add_sub_assoc hcount]

end Sys2Proof.Machine
end

