-- ==== Sys2Proof/Proofs/StateScheduling.lean ====
section
/-! Which operation a step runs (10_state R27, 30_encoding R69, 70_reset R150). -/

namespace Sys2Proof.Machine

/-! ### The step in terms of `nextMove` -/

theorem step_of_run {s : State} {i : Instr} {inputs : List Input} (h : nextMove s = .run i inputs) :
    step s = exec i { s with inputs := inputs } := by
  rw [step, h]

theorem step_of_refuse {s : State} {r : Refusal} (h : nextMove s = .refuse r) :
    step s = .refused r := by
  rw [step, h]

theorem step_of_rest {s : State} {inputs : List Input} (h : nextMove s = .rest inputs) :
    step s = .next { s with inputs := inputs } := by
  rw [step, h]

/-! ### Commands -/

theorem nextMove_command {s : State} {agent : Domain} {port : Port} {cw : CmdWord} {rest : List Input}
    (h : s.inputs = .command agent port cw :: rest) :
    nextMove s = commandMove agent port cw rest s := by
  rw [nextMove, h]

theorem interruptInProgress_of_idle {s : State} (h : s.iPhase = .idle) :
    interruptInProgress s = none := by
  simp [interruptInProgress, h]

/-- An accepted command runs, unless its own domain is the interrupt domain and busy (R125). -/
theorem commandMove_of_accept {s : State} {agent : Domain} {port : Port} {cw : CmdWord}
    {rest : List Input} {i : Instr} (h : accept agent port cw s = .ok i)
    (hidle : i.domain = .interrupt → s.iPhase = .idle) :
    commandMove agent port cw rest s = .run i rest := by
  unfold commandMove
  rw [h]
  cases hd : i.domain with
  | task => simp [hd]
  | interrupt => simp [hd, interruptInProgress_of_idle (hidle hd)]

theorem commandMove_of_error {s : State} {agent : Domain} {port : Port} {cw : CmdWord}
    {rest : List Input} {r : Refusal} (h : accept agent port cw s = .error r) :
    commandMove agent port cw rest s = .refuse r := by
  rw [commandMove, h]

/-- A task-domain command that is in order but for the task domain being busy (R27, R118). -/
theorem accept_taskBusy {s : State} {cw : CmdWord} {i : Instr}
    (hdec : decode s.params.handleW cw = .ok i) (hl : i.level = s.params.level)
    (hd : i.domain = .task) (hp : s.tPhase ≠ .idle) :
    accept .task i.port cw s = .error .taskBusy := by
  simp [accept, hdec, hl, hd, hp]

/-- Settles O52: the command is accepted, so it is what the next step runs. -/
theorem stepRunsTheAcceptedCommand : Obligations.StepRunsTheAcceptedCommand := by
  intro s port cw rest i hin hdec hport hl htask hint
  have hacc : accept i.domain port cw s = .ok i := accept_eq_ok.2 ⟨hdec, hport, hl, rfl, htask⟩
  exact step_of_run ((nextMove_command hin).trans (commandMove_of_accept hacc hint))

/-- Settles O54: the command is refused where it is presented. -/
theorem commandInsideAnOperationIsRefused : Obligations.CommandInsideAnOperationIsRefused := by
  intro s cw rest i hin hdec hl hd hp
  exact step_of_refuse
    ((nextMove_command hin).trans (commandMove_of_error (accept_taskBusy hdec hl hd hp)))

/-! ### Operations in progress -/

theorem taskInProgress_of_idle {s : State} (h : s.tPhase = .idle) : taskInProgress s = none := by
  rw [taskInProgress, h]

/-- P2 to P4 belong to POP at level QUEUE and to RECV at level DRIVER (R26). -/
theorem taskInProgress_of_pop {s : State} (h : s.tPhase = .p2 ∨ s.tPhase = .p3 ∨ s.tPhase = .p4) :
    taskInProgress s = some (if s.params.level = .queue then .pop else .recv) := by
  obtain h | h | h := h <;> rw [taskInProgress, h]

theorem taskInProgress_of_init {s : State} (h : s.tPhase = .i2 ∨ s.tPhase = .i3) :
    taskInProgress s = some (.init s.tArg) := by
  obtain h | h := h <;> rw [taskInProgress, h]

theorem taskInProgress_of_send {s : State} (h : s.tPhase = .t2) :
    taskInProgress s = some (.send s.tFrame) := by
  rw [taskInProgress, h]

/-- W1 to W4 belong to PUSH at level QUEUE and to RXIRQ at level DRIVER (R150 d). -/
theorem interruptInProgress_of_push {s : State} (h : s.iPhase ≠ .idle) :
    interruptInProgress s =
      some (if s.params.level = .queue then .push s.iFrame else .rxirq s.iArg) := by
  simp [interruptInProgress, h]

/-- The operation in progress in a domain. -/
def inProgress (d : Domain) (s : State) : Option Instr :=
  match d with
  | .task => taskInProgress s
  | .interrupt => interruptInProgress s

theorem nextMove_resume {s : State} {d : Domain} {rest : List Input}
    (h : s.inputs = .resume d :: rest) : nextMove s = resumeMove (inProgress d s) rest := by
  rw [nextMove, h]
  cases d <;> rfl

/-- A domain that is granted a step continues its operation. -/
theorem step_of_inProgress {s : State} {d : Domain} {rest : List Input} {i : Instr}
    (h : s.inputs = .resume d :: rest) (hi : inProgress d s = some i) :
    step s = exec i { s with inputs := rest } := by
  refine step_of_run ((nextMove_resume h).trans ?_)
  rw [hi, resumeMove]

/-- A domain that is granted a step and has no operation in progress does nothing (log 4). -/
theorem step_of_not_inProgress {s : State} {d : Domain} {rest : List Input}
    (h : s.inputs = .resume d :: rest) (hi : inProgress d s = none) :
    step s = .next { s with inputs := rest } := by
  refine step_of_rest ((nextMove_resume h).trans ?_)
  rw [hi, resumeMove]

/-- Settles O53: phase by phase, the operation that `inProgress` names. -/
theorem stepContinuesTheOperationInProgress : Obligations.StepContinuesTheOperationInProgress := by
  refine fun s rest => ⟨fun hin => ⟨fun hp => ⟨fun hl => ?_, fun hl => ?_⟩, fun hp => ?_, fun hp => ?_,
    fun hp => ?_⟩, fun hin => ⟨fun hp hl => ?_, fun hp hl => ?_, fun hp => ?_⟩⟩
  · exact step_of_inProgress hin ((taskInProgress_of_pop hp).trans (by simp [hl]))
  · exact step_of_inProgress hin ((taskInProgress_of_pop hp).trans (by simp [hl]))
  · exact step_of_inProgress hin (taskInProgress_of_init hp)
  · exact step_of_inProgress hin (taskInProgress_of_send hp)
  · exact step_of_not_inProgress hin (taskInProgress_of_idle hp)
  · exact step_of_inProgress hin ((interruptInProgress_of_push hp).trans (by simp [hl]))
  · exact step_of_inProgress hin ((interruptInProgress_of_push hp).trans (by simp [hl]))
  · exact step_of_not_inProgress hin (interruptInProgress_of_idle hp)

end Sys2Proof.Machine
end

