-- ==== Sys2Proof/Proofs/MemoryResponses.lean ====
section
/-! The two records: what a response word says of the frame it carries (30_encoding R62, R68), and that a
micro-step makes at most one peripheral call (20_memory R46, 42_interrupt_ops R104). -/

namespace Sys2Proof

/-! ### Frames in response words -/

/-- A field is what its bits are. -/
theorem extractLsb'_eq_of_getLsbD {n w : Nat} {x : BitVec n} {y : BitVec w} {start : Nat}
    (h : ∀ k < w, x.getLsbD (start + k) = y.getLsbD k) : x.extractLsb' start w = y := by
  ext k hk
  rw [BitVec.getElem_extractLsb', h k hk, BitVec.getLsbD_eq_getElem]

/-- The data field is read back as the payload (R62). -/
theorem payloadOfBits_payloadBits (d : Payload) : payloadOfBits (payloadBits d) = d := by
  apply Payload.ext <;> exact extractLsb'_eq_of_getLsbD fun k hk => by
    simp (disch := omega) only [payloadBits_getLsbD, if_pos, if_neg, Nat.zero_add, Nat.add_sub_cancel_left]

/-- The frame image is read back as the frame (R62). -/
theorem frameOfImage_frameImage (f : Frame) : frameOfImage (frameImage f) = f := by
  have hid : (frameImage f).extractLsb' 0 32 = f.id := extractLsb'_eq_of_getLsbD fun k hk => by
    simp only [frameImage_getLsbD, hk, if_true, Nat.zero_add]
  have hext : (frameImage f).getLsbD 32 = f.extended := frameImage_getLsbD f 32
  have hdlc : (frameImage f).extractLsb' 36 8 = f.dlc := extractLsb'_eq_of_getLsbD fun k hk => by
    simp (disch := omega) only [frameImage_getLsbD, if_pos, if_neg, Nat.add_sub_cancel_left]
  have hdata : (frameImage f).extractLsb' 44 64 = payloadBits f.data :=
    extractLsb'_eq_of_getLsbD fun k _ => by
      simp (disch := omega) only [frameImage_getLsbD, if_neg, Nat.add_sub_cancel_left]
  rw [frameOfImage, hid, hext, hdlc, hdata, payloadOfBits_payloadBits]

namespace Machine

/-- An RF word is read back as the result it was built from (R68). -/
theorem frameOfRf_rfWord (r : Option Frame) : frameOfRf (rfWord r) = r := by
  cases r with
  | none => rfl
  | some f =>
    have hvalid : (rfWord (some f)).getLsbD 0 = true := getLsbD_append_of_eq 0 4 (frameImage f) 1#4 rfl
    have himage : (rfWord (some f)).extractLsb' 4 108 = frameImage f := BitVec.extractLsb'_append_eq_left
    rw [frameOfRf, hvalid, himage, frameOfImage_frameImage]
    rfl

/-- At most one response is returned between `s` and `t`, and `f` is the frame it carries (R68). -/
def Replied (s t : State) (f : Option Frame) : Prop :=
  ∃ r : Option (Port × Response),
    t.responses = s.responses ++ r.toList ∧ (r.bind fun x => x.2.frame?) = f

theorem Replied.nothing {s t : State} (h : t.responses = s.responses) : Replied s t none :=
  ⟨none, by simp [h], rfl⟩

theorem Replied.one {s t : State} {out : Port} {r : Response} {f : Option Frame}
    (h : t.responses = s.responses ++ [(out, r)]) (hf : r.frame? = f) : Replied s t f :=
  ⟨some (out, r), h, hf⟩

/-- Only an RF word returns a frame: the boolean of a PUSH returns none, whichever port it leaves by. -/
theorem replied_pushReturn (out : Option Port) (ok : Bool) (s : State) :
    Replied s (pushReturn out ok s) none := by
  cases out with
  | none => exact .nothing rfl
  | some port => exact .one rfl rfl

theorem Replied.framesReturned_eq {s t : State} {f : Option Frame} (h : Replied s t f) :
    framesReturned s t = f.toList := by
  obtain ⟨r, hr, rfl⟩ := h
  rw [framesReturned, hr, List.drop_left]
  cases r with
  | none => rfl
  | some x => cases hx : x.2.frame? <;> simp [hx]

/-- R46: the record of responses grows by the one response, or stays. -/
theorem Replied.responses_cases {s t : State} {f : Option Frame} (h : Replied s t f) :
    t.responses = s.responses ∨ ∃ r, t.responses = s.responses ++ [r] := by
  obtain ⟨r, hr, -⟩ := h
  cases r with
  | none => exact .inl (by simpa using hr)
  | some x => exact .inr ⟨x, hr⟩

/-! ### Peripheral calls -/

@[simp] theorem pushReturn_calls (out : Option Port) (ok : Bool) (s : State) :
    (pushReturn out ok s).calls = s.calls := by
  rw [pushReturn_eq]

@[simp] theorem pushW1_calls (out : Option Port) (f : Frame) (s : State) :
    (pushW1 out f s).calls = s.calls := by
  obtain ⟨-, h⟩ | ⟨-, h⟩ := pushW1_cases out f s <;> simp [h]

theorem pushWhole_calls {out : Option Port} {f : Frame} {s t : State}
    (h : pushWhole out f s = .next t) : t.calls = s.calls := by
  obtain ⟨-, rfl⟩ | ⟨-, -, rfl⟩ := pushWhole_eq_next.1 h <;> simp

theorem pushResume_calls {out : Option Port} {s t : State}
    (h : pushResume out s = .next t) : t.calls = s.calls := by
  obtain ⟨-, rfl⟩ | ⟨-, rfl⟩ | ⟨-, -, rfl⟩ | ⟨-, rfl⟩ | ⟨-, -, rfl⟩ := pushResume_eq_next.1 h <;> simp

theorem rxDeliver_calls {src : Handle} {r : Option RxMessage} {s t : State}
    (h : rxDeliver src r s = .next t) : t.calls = s.calls := by
  obtain ⟨-, rfl⟩ | ⟨m, -, -, ⟨-, hpush⟩ | ⟨-, rfl⟩⟩ := rxDeliver_eq_next.1 h
  · rfl
  · exact pushWhole_calls hpush
  · rfl

/-- PUSH makes no call (R80). -/
theorem execPush_calls {f : Frame} {s t : State} (h : execPush f s = .next t) : t.calls = s.calls := by
  obtain ⟨-, -, hwhole⟩ | ⟨-, -, rfl⟩ | ⟨-, hresume⟩ := execPush_eq_next.1 h
  · exact pushWhole_calls hwhole
  · simp
  · exact pushResume_calls hresume

/-- RXIRQ makes one call, `Env.GetRx` at X1, or none (R100, R104). -/
theorem execRxirq_calls {src : Handle} {s t : State} (h : execRxirq src s = .next t) :
    t.calls = s.calls ∨ t.calls = s.calls ++ [.getRx src] := by
  obtain ⟨-, -, rfl⟩ | ⟨-, -, -, hdeliver⟩ | ⟨-, hresume⟩ := execRxirq_eq_next.1 h
  · exact .inl rfl
  · exact .inr ((rxDeliver_calls hdeliver).trans (callGetRx_calls src s))
  · exact .inl (pushResume_calls hresume)

theorem initI2_calls (s : State) : (initI2 s).calls = s.calls ++ [.start s.tArg] := by
  rw [initI2_eq]
  split <;> rfl

theorem initI3_calls (s : State) :
    (initI3 s).calls = s.calls ++ [.actNotify s.tArg allNotifications] := by
  rw [initI3_eq]
  dsimp only
  split <;> rfl

/-- INIT makes one call in each of I1, I2 and I3 (R90). -/
theorem execInit_calls {hd : Handle} {s t : State} (h : execInit hd s = .next t) :
    ∃ c, t.calls = s.calls ++ [c] := by
  obtain ⟨-, -, rfl⟩ | ⟨-, rfl⟩ | ⟨-, rfl⟩ := execInit_eq_next.1 h
  · refine ⟨.cfgFilter hd acceptAll, ?_⟩
    split <;> rfl
  · exact ⟨_, initI2_calls s⟩
  · exact ⟨_, initI3_calls s⟩

/-- SEND makes one call, `Env.AddTx` at T2, or none (R91). -/
theorem execSend_calls {f : Frame} {s t : State} (h : execSend f s = .next t) :
    t.calls = s.calls ∨ ∃ c, t.calls = s.calls ++ [c] := by
  obtain ⟨-, -, rfl⟩ | ⟨-, -, -, rfl⟩ | ⟨-, rfl⟩ := execSend_eq_next.1 h
  · exact .inl rfl
  · exact .inl rfl
  · unfold sendT2
    split
    · exact .inr ⟨_, rfl⟩
    · exact .inl rfl

/-- An operation makes at most one call in one micro-step (R46). -/
theorem exec_calls {i : Instr} {s t : State} (h : exec i s = .next t) :
    t.calls = s.calls ∨ ∃ c, t.calls = s.calls ++ [c] := by
  have hconsumer (hi : i = .pop ∨ i = .size ∨ i = .recv) : t.calls = s.calls := by
    obtain ⟨ht, -⟩ := exec_consumerFrame hi h
    rw [ht]
  cases i with
  | pop => exact .inl (hconsumer (by simp))
  | size => exact .inl (hconsumer (by simp))
  | recv => exact .inl (hconsumer (by simp))
  | init hd => exact .inr (execInit_calls h)
  | send f => exact execSend_calls h
  | push f => exact .inl (execPush_calls h)
  | rxirq src => exact (execRxirq_calls h).imp_right fun hc => ⟨_, hc⟩
  | errirq src => exact .inl (by rw [execErrirq_eq_next (src := src) |>.1 h])
  | boffirq src => exact .inl (by rw [execBoffirq_eq_next (src := src) |>.1 h])

end Machine

end Sys2Proof
end

