-- ==== Sys2Proof/Proofs/MemoryQueueEvents.lean ====
section
/-! What a micro-step does to the queue, in every state (20_memory R45, R50, R52, 40_queue_ops R80, R81):
`exec_queueEvent` says it once, and the statements about `count` and the responses are read off. -/

namespace Sys2Proof.Machine

/-! ### The events -/

/-- The registers the content is read from (R32, R84) are those of `u`. -/
def SameQueue (u t : State) : Prop :=
  t.params = u.params ∧ t.slots = u.slots ∧ t.tail = u.tail ∧ t.count = u.count ∧ t.tPhase = u.tPhase

theorem SameQueue.contents_eq {u t : State} (h : SameQueue u t) : contents t = contents u := by
  obtain ⟨hparams, hslots, htail, hcount, hp⟩ := h
  simp only [contents, oldest, hparams, hslots, htail, hcount, hp]

/-- What one micro-step can do to the queue: nothing, P3, W2, W4, a PUSH with room in one step, P4. -/
inductive QueueEvent
  | keep
  | advanceTail
  | store (f : Frame)
  | countUp
  | push (f : Frame)
  | pop

/-- Where in its operation the micro-step stands, and what it writes (R80, R81). -/
def QueueEvent.Moves (e : QueueEvent) (s t : State) : Prop :=
  match e with
  | .keep => SameQueue { s with tPhase := t.tPhase } t ∧ (t.tPhase = .p4 ↔ s.tPhase = .p4)
  | .advanceTail => s.tPhase = .p3 ∧
      SameQueue { s with tail := nextIndex s.params.capacity s.tail, tPhase := .p4 } t
  | .store f => s.iPhase = .w2 ∧ SameQueue { s with slots := s.slots.write s.head f } t
  | .countUp => s.iPhase = .w4 ∧ s.count < s.params.capacity ∧
      SameQueue { s with count := s.count + 1 } t
  | .push f => s.iPhase = .idle ∧ s.count < s.params.capacity ∧
      SameQueue { s with slots := s.slots.write s.head f, count := s.count + 1 } t
  | .pop => s.tPhase = .p4 ∧ 1 ≤ s.count ∧
      SameQueue { s with count := s.count - 1, tPhase := .idle } t ∧ t.head = s.head

/-- The frame the micro-step returns: P4 returns the one latched at P2 (R81). -/
def QueueEvent.returned (e : QueueEvent) (s : State) : Option Frame :=
  match e with
  | .pop => some s.tFrame
  | _ => none

/-- The micro-step from `s` to `t` was this event. -/
def QueueEvent.Between (e : QueueEvent) (s t : State) : Prop :=
  e.Moves s t ∧ Replied s t (e.returned s)

/-! ### Task-domain operations -/

/-- A micro-step that writes none of the queue's registers and returns no frame. -/
theorem queueEvent_keep {s t : State} (hq : SameQueue { s with tPhase := t.tPhase } t)
    (hs : s.tPhase ≠ .p4) (ht : t.tPhase ≠ .p4) (hr : Replied s t none) :
    ∃ e : QueueEvent, e.Between s t :=
  ⟨.keep, ⟨hq, iff_of_false ht hs⟩, hr⟩

theorem popResume_queueEvent {out : Port} {s t : State} (h : popResume out s = .next t) :
    ∃ e : QueueEvent, e.Between s t := by
  obtain ⟨hp, -, f, -, rfl⟩ | ⟨hp, rfl⟩ | ⟨hp, hc, rfl⟩ := popResume_eq_next.1 h
  · exact queueEvent_keep ⟨rfl, rfl, rfl, rfl, rfl⟩ (by simp [hp]) (by simp) (.nothing rfl)
  · exact ⟨.advanceTail, ⟨hp, rfl, rfl, rfl, rfl, rfl⟩, .nothing rfl⟩
  · exact ⟨.pop, ⟨hp, hc, ⟨rfl, rfl, rfl, rfl, rfl⟩, rfl⟩, .one rfl (frameOfRf_rfWord _)⟩

/-- P1 moves no frame: an empty POP answers `None`, another one goes on to P2 (R81). -/
theorem execPop_queueEvent {s t : State} (h : execPop s = .next t) :
    ∃ e : QueueEvent, e.Between s t := by
  obtain ⟨hp, -, rfl⟩ | ⟨hp, -, rfl⟩ | hresume := execPop_eq_next.1 h
  · exact queueEvent_keep ⟨rfl, rfl, rfl, rfl, rfl⟩ (by simp [hp]) (by simp [hp])
      (.one rfl (frameOfRf_rfWord _))
  · exact queueEvent_keep ⟨rfl, rfl, rfl, rfl, rfl⟩ (by simp [hp]) (by simp) (.nothing rfl)
  · exact popResume_queueEvent hresume

theorem execSize_queueEvent {s t : State} (h : execSize s = .next t) :
    ∃ e : QueueEvent, e.Between s t := by
  obtain ⟨hp, rfl⟩ := execSize_eq_next.1 h
  exact queueEvent_keep ⟨rfl, rfl, rfl, rfl, rfl⟩ (by simp [hp]) (by simp [hp]) (.one rfl rfl)

theorem execRecv_queueEvent {s t : State} (h : execRecv s = .next t) :
    ∃ e : QueueEvent, e.Between s t := by
  obtain ⟨hp, -, rfl⟩ | ⟨hp, -, -, rfl⟩ | hresume := execRecv_eq_next.1 h
  · exact queueEvent_keep ⟨rfl, rfl, rfl, rfl, rfl⟩ (by simp [hp]) (by simp [hp])
      (.one rfl (frameOfRf_rfWord _))
  · exact queueEvent_keep ⟨rfl, rfl, rfl, rfl, rfl⟩ (by simp [hp]) (by simp) (.nothing rfl)
  · exact popResume_queueEvent hresume

theorem execInit_queueEvent {hd : Handle} {s t : State} (h : execInit hd s = .next t) :
    ∃ e : QueueEvent, e.Between s t := by
  obtain ⟨hp, -, rfl⟩ | ⟨hp, rfl⟩ | ⟨hp, rfl⟩ := execInit_eq_next.1 h
  · split
    · exact queueEvent_keep ⟨rfl, rfl, rfl, rfl, rfl⟩ (by simp [hp]) (by simp) (.nothing rfl)
    · exact queueEvent_keep ⟨rfl, rfl, rfl, rfl, rfl⟩ (by simp [hp]) (by simp [hp]) (.one rfl rfl)
  · rw [initI2_eq]
    split
    · exact queueEvent_keep ⟨rfl, rfl, rfl, rfl, rfl⟩ (by simp [hp]) (by simp) (.nothing rfl)
    · exact queueEvent_keep ⟨rfl, rfl, rfl, rfl, rfl⟩ (by simp [hp]) (by simp) (.one rfl rfl)
  · rw [initI3_eq]
    dsimp only
    split <;>
      exact queueEvent_keep ⟨rfl, rfl, rfl, rfl, rfl⟩ (by simp [hp]) (by simp) (.one rfl rfl)

theorem execSend_queueEvent {f : Frame} {s t : State} (h : execSend f s = .next t) :
    ∃ e : QueueEvent, e.Between s t := by
  obtain ⟨hp, -, rfl⟩ | ⟨hp, -, -, rfl⟩ | ⟨hp, rfl⟩ := execSend_eq_next.1 h
  · exact queueEvent_keep ⟨rfl, rfl, rfl, rfl, rfl⟩ (by simp [hp]) (by simp [hp]) (.one rfl rfl)
  · exact queueEvent_keep ⟨rfl, rfl, rfl, rfl, rfl⟩ (by simp [hp]) (by simp) (.nothing rfl)
  · unfold sendT2
    split <;>
      exact queueEvent_keep ⟨rfl, rfl, rfl, rfl, rfl⟩ (by simp [hp]) (by simp) (.one rfl rfl)

/-! ### Interrupt-domain operations -/

/-- An interrupt-domain micro-step that writes none of the queue's registers. -/
theorem queueEvent_of_sameQueue {s t : State} (hq : SameQueue s t) (hr : Replied s t none) :
    ∃ e : QueueEvent, e.Between s t := by
  obtain ⟨hparams, hslots, htail, hcount, hp⟩ := hq
  exact ⟨.keep, ⟨⟨hparams, hslots, htail, hcount, rfl⟩, by rw [hp]⟩, hr⟩

/-- PUSH's return adds its boolean to whatever the micro-step did. -/
theorem sameQueue_pushReturn (out : Option Port) (ok : Bool) (s : State) :
    SameQueue s (pushReturn out ok s) := by
  rw [pushReturn_eq]
  exact ⟨rfl, rfl, rfl, rfl, rfl⟩

theorem pushWhole_queueEvent {out : Option Port} {f : Frame} {s t : State} (hp : s.iPhase = .idle)
    (h : pushWhole out f s = .next t) : ∃ e : QueueEvent, e.Between s t := by
  obtain ⟨-, rfl⟩ | ⟨hroom, -, rfl⟩ := pushWhole_eq_next.1 h
  · exact queueEvent_of_sameQueue (sameQueue_pushReturn _ _ _) (replied_pushReturn _ _ _)
  · exact ⟨.push f, ⟨hp, hroom, sameQueue_pushReturn _ _ _⟩, replied_pushReturn _ _ _⟩

theorem pushW1_queueEvent (out : Option Port) (f : Frame) (s : State) :
    ∃ e : QueueEvent, e.Between s (pushW1 out f s) := by
  obtain ⟨-, he⟩ | ⟨-, he⟩ := pushW1_cases out f s <;> rw [he]
  · exact queueEvent_of_sameQueue (sameQueue_pushReturn _ _ _) (replied_pushReturn _ _ _)
  · exact queueEvent_of_sameQueue ⟨rfl, rfl, rfl, rfl, rfl⟩ (.nothing rfl)

theorem pushResume_queueEvent {out : Option Port} {s t : State} (h : pushResume out s = .next t) :
    ∃ e : QueueEvent, e.Between s t := by
  obtain ⟨-, rfl⟩ | ⟨-, rfl⟩ | ⟨hp, -, rfl⟩ | ⟨-, rfl⟩ | ⟨hp, hroom, rfl⟩ := pushResume_eq_next.1 h
  · exact queueEvent_of_sameQueue ⟨rfl, rfl, rfl, rfl, rfl⟩ (.nothing rfl)
  · exact pushW1_queueEvent out s.iFrame s
  · exact ⟨.store s.iFrame, ⟨hp, rfl, rfl, rfl, rfl, rfl⟩, .nothing rfl⟩
  · exact queueEvent_of_sameQueue ⟨rfl, rfl, rfl, rfl, rfl⟩ (.nothing rfl)
  · exact ⟨.countUp, ⟨hp, hroom, sameQueue_pushReturn _ _ _⟩, replied_pushReturn _ _ _⟩

theorem execPush_queueEvent {f : Frame} {s t : State} (h : execPush f s = .next t) :
    ∃ e : QueueEvent, e.Between s t := by
  obtain ⟨hp, -, hwhole⟩ | ⟨-, -, rfl⟩ | ⟨-, hresume⟩ := execPush_eq_next.1 h
  · exact pushWhole_queueEvent hp hwhole
  · exact pushW1_queueEvent _ f s
  · exact pushResume_queueEvent hresume

theorem rxDeliver_queueEvent {src : Handle} {r : Option RxMessage} {s t : State}
    (hp : s.iPhase = .idle) (h : rxDeliver src r s = .next t) : ∃ e : QueueEvent, e.Between s t := by
  obtain ⟨-, rfl⟩ | ⟨m, -, -, ⟨-, hpush⟩ | ⟨-, rfl⟩⟩ := rxDeliver_eq_next.1 h
  · exact queueEvent_of_sameQueue ⟨rfl, rfl, rfl, rfl, rfl⟩ (.nothing rfl)
  · exact pushWhole_queueEvent hp hpush
  · exact queueEvent_of_sameQueue ⟨rfl, rfl, rfl, rfl, rfl⟩ (.nothing rfl)

theorem execRxirq_queueEvent {src : Handle} {s t : State} (h : execRxirq src s = .next t) :
    ∃ e : QueueEvent, e.Between s t := by
  obtain ⟨-, -, rfl⟩ | ⟨hp, -, -, hdeliver⟩ | ⟨-, hresume⟩ := execRxirq_eq_next.1 h
  · exact queueEvent_of_sameQueue ⟨rfl, rfl, rfl, rfl, rfl⟩ (.nothing rfl)
  · exact rxDeliver_queueEvent (s := (callGetRx src s).2) hp hdeliver
  · exact pushResume_queueEvent hresume

/-! ### Every operation -/

/-- Every micro-step that goes on is one queue event, whatever the state. -/
theorem exec_queueEvent {i : Instr} {s t : State} (h : exec i s = .next t) :
    ∃ e : QueueEvent, e.Between s t := by
  have hsame (ht : t = s) : ∃ e : QueueEvent, e.Between s t := by
    rw [ht]
    exact queueEvent_of_sameQueue ⟨rfl, rfl, rfl, rfl, rfl⟩ (.nothing rfl)
  cases i with
  | pop => exact execPop_queueEvent h
  | size => exact execSize_queueEvent h
  | recv => exact execRecv_queueEvent h
  | init hd => exact execInit_queueEvent h
  | send f => exact execSend_queueEvent h
  | push f => exact execPush_queueEvent h
  | rxirq src => exact execRxirq_queueEvent h
  | errirq src => exact hsame (execErrirq_eq_next (src := src) |>.1 h)
  | boffirq src => exact hsame (execBoffirq_eq_next (src := src) |>.1 h)

/-- So is every step: one that runs nothing keeps the queue. -/
theorem step_queueEvent {s t : State} (h : step s = .next t) : ∃ e : QueueEvent, e.Between s t := by
  obtain ⟨i, inputs, -, hexec⟩ | ⟨inputs, -, rfl⟩ := step_eq_next.1 h
  · exact exec_queueEvent (s := { s with inputs := inputs }) hexec
  · exact queueEvent_of_sameQueue ⟨rfl, rfl, rfl, rfl, rfl⟩ (.nothing rfl)

/-- Settles O49: `exec_calls` for the calls, and every queue event returns at most one response. -/
theorem atMostOneCallAndResponsePerStep : Obligations.AtMostOneCallAndResponsePerStep := by
  intro s t h
  obtain ⟨e, -, hreplied⟩ := step_queueEvent h
  refine ⟨?_, hreplied.responses_cases⟩
  obtain ⟨i, inputs, -, hexec⟩ | ⟨inputs, -, rfl⟩ := step_eq_next.1 h
  · exact exec_calls (s := { s with inputs := inputs }) hexec
  · exact .inl rfl

/-- Settles O44: of the queue events, W4 and a whole PUSH count up and only P4 counts down. -/
theorem countMovesByOne : Obligations.CountMovesByOne := by
  intro s t h
  obtain ⟨e, hmoves, -⟩ := step_queueEvent h
  cases e with
  | keep =>
    obtain ⟨⟨-, -, -, hcount, -⟩, -⟩ := hmoves
    exact .inl hcount
  | advanceTail =>
    obtain ⟨-, -, -, -, hcount, -⟩ := hmoves
    exact .inl hcount
  | store f =>
    obtain ⟨-, -, -, -, hcount, -⟩ := hmoves
    exact .inl hcount
  | countUp =>
    obtain ⟨-, -, -, -, htail, hcount, hp⟩ := hmoves
    exact .inr (.inl ⟨hcount, htail, hp⟩)
  | push f =>
    obtain ⟨-, -, -, -, htail, hcount, hp⟩ := hmoves
    exact .inr (.inl ⟨hcount, htail, hp⟩)
  | pop =>
    obtain ⟨hp, hc, ⟨-, -, -, hcount, hp'⟩, hhead⟩ := hmoves
    exact .inr (.inr ⟨by rw [hcount, Nat.sub_add_cancel hc], hp, hp', hhead⟩)

end Sys2Proof.Machine
end

