-- ==== Sys2Proof/Proofs/MemoryFifo.lean ====
section
/-! Slots and order (20_memory R42, R55): a slot access moves one Frame, and delivery is first in, first out.
With the invariant a queue event is an event of the abstract content (40_queue_ops R83 g, R84), and the
frames of a run are conserved in order. -/

namespace Sys2Proof.Machine

/-! ### Slot accesses -/

/-- Settles O9: the slot laws `read_write_same` and `read_write_other`, and the consumers' frame. -/
theorem slotAccessMovesOneWholeFrame : Obligations.SlotAccessMovesOneWholeFrame := by
  refine ⟨fun s i f hi => ?_, fun s i f hi hread => memRead_eq_next.2 ⟨hi, hread⟩, fun s t h => ?_⟩
  · refine ⟨{ s with slots := s.slots.write i f }, memWrite_eq_next.2 ⟨hi, rfl⟩, rfl,
      memRead_eq_next.2 ⟨hi, Memory.read_write_same _ _ _⟩, fun j hj => ?_⟩
    simp only [memRead, Memory.read_write_other _ _ hj]
  · obtain ⟨ht, -⟩ : ConsumerFrame s t :=
      h.elim (exec_consumerFrame (.inl rfl)) (exec_consumerFrame (.inr (.inr rfl)))
    rw [ht]

/-! ### The content -/

/-- R83 g, R84: on the content, a queue event is nothing, the frame counted at W4 appended below the
capacity, or the oldest frame removed and returned. -/
theorem QueueEvent.Between.contents_cases {e : QueueEvent} {s t : State} (hs : Good s)
    (h : e.Between s t) :
    (contents t = contents s ∧ framesReturned s t = []) ∨
    (∃ f, contents t = contents s ++ [some f] ∧ (contents s).length < s.params.capacity ∧
      framesReturned s t = []) ∨
    (∃ f, contents s = some f :: contents t ∧ framesReturned s t = [f]) := by
  obtain ⟨hmoves, hreplied⟩ := h
  have hframes := hreplied.framesReturned_eq
  rw [contents_length]
  cases e with
  | keep =>
    obtain ⟨hq, hp⟩ := hmoves
    refine .inl ⟨hq.contents_eq.trans ?_, hframes⟩
    simp only [contents, oldest, hp]
  | advanceTail =>
    obtain ⟨hp, hq⟩ := hmoves
    exact .inl ⟨hq.contents_eq.trans (hs.contents_advanceTail hp), hframes⟩
  | store f =>
    obtain ⟨hp, hq⟩ := hmoves
    have hkept := hs.contents_writeHead (by simp [hp]) (hs.push.room (.inl hp)) f
    exact .inl ⟨hq.contents_eq.trans hkept, hframes⟩
  | countUp =>
    obtain ⟨hp, hroom, hq⟩ := hmoves
    have hcounted := contents_countUp s
    rw [hs.push.frame (.inr hp)] at hcounted
    exact .inr (.inl ⟨s.iFrame, hq.contents_eq.trans hcounted, hroom, hframes⟩)
  | push f =>
    obtain ⟨hp, hroom, hq⟩ := hmoves
    have hpushed := hs.contents_push (by simp [hp]) hroom f
    exact .inr (.inl ⟨f, hq.contents_eq.trans hpushed, hroom, hframes⟩)
  | pop =>
    obtain ⟨hp, -, hq, -⟩ := hmoves
    refine .inr (.inr ⟨s.tFrame, ?_, hframes⟩)
    rw [hq.contents_eq]
    exact hs.contents_countDown hp

/-- R83 g, R84: the same of every step of a good state. -/
theorem step_contents_cases {s t : State} (hs : Good s) (h : step s = .next t) :
    (contents t = contents s ∧ framesReturned s t = []) ∨
    (∃ f, contents t = contents s ++ [some f] ∧ (contents s).length < s.params.capacity ∧
      framesReturned s t = []) ∨
    (∃ f, contents s = some f :: contents t ∧ framesReturned s t = [f]) := by
  obtain ⟨e, he⟩ := step_queueEvent h
  exact he.contents_cases hs

/-- What a step adds is what the content grew by. -/
theorem contentsAdded_of_append {s t : State} {l : List (Option Frame)}
    (h : contents t = contents s ++ l) : contentsAdded s t = l := by
  have hlen := congrArg List.length h
  simp only [List.length_append, contents_length] at hlen
  cases l with
  | nil => simp [contentsAdded, hlen]
  | cons x l => simp [contentsAdded, hlen, h, ← contents_length s]

/-- A content that does not grow had nothing added. -/
theorem contentsAdded_of_count_le {s t : State} (h : t.count ≤ s.count) : contentsAdded s t = [] :=
  if_neg (Nat.not_lt.2 h)

/-- One step conserves the frames, in order. -/
theorem step_conserves_frames {s t : State} (hs : Good s) (h : step s = .next t) :
    contents s ++ contentsAdded s t = (framesReturned s t).map some ++ contents t := by
  obtain ⟨hc, hf⟩ | ⟨f, hc, -, hf⟩ | ⟨f, hc, hf⟩ := step_contents_cases hs h
  · rw [contentsAdded_of_append (l := []) (by simpa using hc), hf, hc]
    simp
  · rw [contentsAdded_of_append hc, hf, hc]
    rfl
  · have hlen := congrArg List.length hc
    simp only [List.length_cons, contents_length] at hlen
    rw [contentsAdded_of_count_le (by omega), hf, hc]
    simp

/-! ### Runs -/

theorem delivered_succ {s u : State} (k : Nat) (h : step s = .next u) :
    delivered (k + 1) s = framesReturned s u ++ delivered k u := by
  rw [delivered, h]

theorem accepted_succ {s u : State} (k : Nat) (h : step s = .next u) :
    accepted (k + 1) s = contentsAdded s u ++ accepted k u := by
  rw [accepted, h]

/-- A run of any length conserves the frames, in order. -/
theorem runSteps_conserves_frames {k : Nat} {s t : State} (hs : Good s) (h : runSteps k s = .next t) :
    contents s ++ accepted k s = (delivered k s).map some ++ contents t := by
  induction k generalizing s with
  | zero =>
    cases h
    simp [accepted, delivered]
  | succ k ih =>
    obtain ⟨u, hstep, hrun⟩ := andThen_eq_next.1 h
    calc contents s ++ accepted (k + 1) s
        = (contents s ++ contentsAdded s u) ++ accepted k u := by
          rw [accepted_succ k hstep, List.append_assoc]
      _ = (framesReturned s u).map some ++ (contents u ++ accepted k u) := by
          rw [step_conserves_frames hs hstep, List.append_assoc]
      _ = (framesReturned s u).map some ++ ((delivered k u).map some ++ contents t) := by
          rw [ih (step_good hs hstep) hrun]
      _ = (delivered (k + 1) s).map some ++ contents t := by
          rw [delivered_succ k hstep, List.map_append, List.append_assoc]

/-- Settles O41: each step conserves the frames in order and keeps the invariant. -/
theorem deliveryIsFifo : Obligations.DeliveryIsFifo :=
  fun _ _ _ hs h => runSteps_conserves_frames (good_of_inv hs) h

end Sys2Proof.Machine
end

