-- ==== Sys2Proof/Proofs/EncodingImage.lean ====
section
/-! The frame image (30_encoding R62) and the response words (R68): where the fields are, and that an image
with its zero bits zero is the image of one frame. -/

namespace Sys2Proof

/-! ### Fields of a word -/

/-- A bit of a word as a field one bit wide. -/
theorem ofBool_getLsbD {n : Nat} (x : BitVec n) (k : Nat) :
    BitVec.ofBool (x.getLsbD k) = x.extractLsb' k 1 :=
  (extractLsb'_eq_of_getLsbD fun j hj => by
    simp [show j = 0 by omega]).symm

/-! ### The frame image -/

/-- Bits 35:33 of an image are zero (R62). -/
theorem frameImage_mbz (f : Frame) : (frameImage f).extractLsb' 33 3 = 0 :=
  extractLsb'_eq_of_getLsbD fun k hk => by
    simp (disch := omega) only [frameImage_getLsbD, if_pos, if_neg]
    exact BitVec.getLsbD_zero.symm

/-- The data field holds nothing but the payload (R62). -/
theorem payloadBits_payloadOfBits (w : BitVec 64) : payloadBits (payloadOfBits w) = w := by
  simp only [payloadBits, payloadOfBits, BitVec.extractLsb'_append_extractLsb'_eq_extractLsb']
  exact BitVec.extractLsb'_eq_self

/-- An image holds nothing but the frame, when its zero bits are zero (R62): the fields are adjacent. -/
theorem frameImage_frameOfImage {fi : BitVec 108} (h : fi.extractLsb' 33 3 = 0) :
    frameImage (frameOfImage fi) = fi := by
  simp only [frameImage, frameOfImage, payloadBits_payloadOfBits, ofBool_getLsbD]
  rw [show 0#3 = fi.extractLsb' 33 3 from h.symm]
  simp only [BitVec.extractLsb'_append_extractLsb'_eq_extractLsb']
  exact BitVec.extractLsb'_eq_self

/-- A byte of the payload stands in the image where the data field has it (R62, D32). -/
theorem frameImage_data_field (f : Frame) (n : Nat) (h : n + 8 ≤ 64) :
    (frameImage f).extractLsb' (44 + n) 8 = (payloadBits f.data).extractLsb' n 8 :=
  extractLsb'_eq_of_getLsbD fun k hk => by
    simp (disch := omega) only [frameImage_getLsbD, if_neg]
    rw [BitVec.getLsbD_extractLsb', decide_eq_true hk, Bool.true_and]
    congr 1
    omega

/-- Settles O5: `frameOfImage` reads the fields where R62 puts them, and it is the inverse of `frameImage`
in both directions. -/
theorem frameImageIsABijection : Obligations.FrameImageIsABijection := by
  refine ⟨fun f => ?_, fun fi => frameImage_frameOfImage⟩
  have hframe := frameOfImage_frameImage f
  have hdata := payloadOfBits_payloadBits f.data
  exact ⟨congrArg Frame.id hframe, congrArg Frame.extended hframe, frameImage_mbz f,
    congrArg Frame.dlc hframe,
    (frameImage_data_field f 0 (by omega)).trans (congrArg Payload.b0 hdata),
    (frameImage_data_field f 8 (by omega)).trans (congrArg Payload.b1 hdata),
    (frameImage_data_field f 16 (by omega)).trans (congrArg Payload.b2 hdata),
    (frameImage_data_field f 24 (by omega)).trans (congrArg Payload.b3 hdata),
    (frameImage_data_field f 32 (by omega)).trans (congrArg Payload.b4 hdata),
    (frameImage_data_field f 40 (by omega)).trans (congrArg Payload.b5 hdata),
    (frameImage_data_field f 48 (by omega)).trans (congrArg Payload.b6 hdata),
    (frameImage_data_field f 56 (by omega)).trans (congrArg Payload.b7 hdata), hframe⟩

/-! ### Response words -/

namespace Machine

/-- The low nibble of a valid RF word is 1 (R68). -/
theorem rfWord_some_nibble (f : Frame) : (rfWord (some f)).extractLsb' 0 4 = 1 :=
  BitVec.extractLsb'_append_eq_right

/-- Above the low nibble a valid RF word is the frame image (R68). -/
theorem rfWord_some_image (f : Frame) : (rfWord (some f)).extractLsb' 4 108 = frameImage f :=
  BitVec.extractLsb'_append_eq_left

/-- Settles O6: an RF word carries the operand of the PUSH word, and `frameOfRf` reads it back. -/
theorem responseWordsCarryTheirResult : Obligations.ResponseWordsCarryTheirResult :=
  ⟨fun f => ⟨rfWord_some_nibble f,
    (rfWord_some_image f).trans (operandOf_encode (.push f)).symm, frameOfRf_rfWord (some f)⟩,
    rfl, frameOfRf_rfWord none, rfl, rfl,
    fun _ hn => ⟨_, rfl, BitVec.toNat_ofNat _ _ |>.trans (Nat.mod_eq_of_lt hn)⟩⟩

end Machine

end Sys2Proof
end

