-- ==== Sys2Proof/Proofs/EncodingDecode.lean ====
section
/-! The decoder as one rule (30_encoding R60, R61, R63, R66): the opcode selects a row of the table, the MBZ
bits of the row's format decide, and the operand bits are the operation's operand. -/

namespace Sys2Proof

/-! ### The rows of the opcode table -/

/-- One operation for each row of R63. -/
def tableRows : List Instr :=
  [.pop, .size, .recv, .init 0, .send Frame.zero, .push Frame.zero, .rxirq 0, .errirq 0, .boffirq 0]

/-- The opcodes without a row (R66 a). -/
def reservedOpcodes : List (BitVec 4) := [0x0, 0x6, 0x7, 0xC, 0xD, 0xE, 0xF]

theorem opcode_reserved_or_row (op : BitVec 4) :
    op ∈ reservedOpcodes ∨ ∃ row : Instr, op = row.opcode := by
  have h : ∀ op : BitVec 4, op ∈ reservedOpcodes ∨ op ∈ tableRows.map Instr.opcode := by decide
  refine (h op).imp_right fun hop => ?_
  obtain ⟨row, -, rfl⟩ := List.mem_map.1 hop
  exact ⟨row, rfl⟩

/-- The MBZ bits that the format of `row` gives the word are zero (R61, R66 b). -/
def Instr.mbzZero (hw : Nat) (row : Instr) (cw : CmdWord) : Bool :=
  match row with
  | .pop | .size | .recv => decide (operandOf cw = 0)
  | .init _ | .rxirq _ | .errirq _ | .boffirq _ => handleFits hw (operandOf cw)
  | .send _ | .push _ => decide (cw.extractLsb' 37 3 = 0)

/-- The operation of the row of `row` whose operand is the word's (R61). -/
def Instr.withOperandOf (row : Instr) (cw : CmdWord) : Instr :=
  match row with
  | .pop => .pop
  | .size => .size
  | .recv => .recv
  | .init _ => .init (operandOf cw)
  | .send _ => .send (frameOfImage (operandOf cw))
  | .push _ => .push (frameOfImage (operandOf cw))
  | .rxirq _ => .rxirq (operandOf cw)
  | .errirq _ => .errirq (operandOf cw)
  | .boffirq _ => .boffirq (operandOf cw)

/-! ### The decoder, row by row -/

theorem decode_of_reserved {hw : Nat} {cw : CmdWord} (h : opcodeOf cw ∈ reservedOpcodes) :
    decode hw cw = .error (.reservedOpcode (opcodeOf cw)) := by
  generalize hop : opcodeOf cw = op at h
  simp only [reservedOpcodes, List.mem_cons, List.not_mem_nil, or_false] at h
  rcases h with rfl | rfl | rfl | rfl | rfl | rfl | rfl <;> simp [decode, hop]

/-- A word with the opcode of a row is that row's operation, unless an MBZ bit is set (R61, R63). -/
theorem decode_of_opcode {hw : Nat} {row : Instr} {cw : CmdWord} (h : opcodeOf cw = row.opcode) :
    decode hw cw =
      if row.mbzZero hw cw then .ok (row.withOperandOf cw) else .error .nonZeroMbz := by
  cases row with
  | pop | size | recv => simp [decode, h, Instr.opcode, decodeN, Instr.mbzZero, Instr.withOperandOf]
  | init | rxirq | errirq | boffirq =>
    rw [decode, h]
    rfl
  | send | push => simp [decode, h, Instr.opcode, decodeF, Instr.mbzZero, Instr.withOperandOf]

/-- What a word that decodes shows: the row of its opcode, with the MBZ bits of the row's format zero. -/
theorem decode_eq_ok {hw : Nat} {cw : CmdWord} {i : Instr} :
    decode hw cw = .ok i ↔
      ∃ row : Instr, opcodeOf cw = row.opcode ∧ row.mbzZero hw cw = true ∧ i = row.withOperandOf cw := by
  constructor
  · intro h
    obtain hres | ⟨row, hop⟩ := opcode_reserved_or_row (opcodeOf cw)
    · rw [decode_of_reserved hres] at h
      cases h
    · rw [decode_of_opcode hop] at h
      split at h
      · next hmbz => cases h; exact ⟨row, hop, hmbz, rfl⟩
      · cases h
  · rintro ⟨row, hop, hmbz, rfl⟩
    rw [decode_of_opcode hop, if_pos hmbz]

/-! ### From the operation to the word and back -/

/-- The MBZ bits of format F are bits 35:33 of the operand (R61). -/
theorem mbz_eq_operand_field (cw : CmdWord) :
    cw.extractLsb' 37 3 = (operandOf cw).extractLsb' 33 3 :=
  extractLsb'_eq_of_getLsbD fun k hk => by
    simp only [operandOf, BitVec.getLsbD_extractLsb', hk, show 33 + k < 108 by omega, decide_true,
      Bool.true_and, ← Nat.add_assoc]

/-- The word of an operation breaks no MBZ rule exactly when its handle fits (R61). -/
theorem mbzZero_encode (hw : Nat) (i : Instr) : i.mbzZero hw (encode i) = i.wellFormed hw := by
  cases i <;>
    simp [Instr.mbzZero, Instr.wellFormed, mbz_eq_operand_field, Instr.operand, frameImage_mbz]

/-- The word of an operation carries its operand, every bit (R61, R62). -/
theorem withOperandOf_encode (i : Instr) : i.withOperandOf (encode i) = i := by
  cases i <;> simp [Instr.withOperandOf, Instr.operand, frameOfImage_frameImage]

theorem withOperandOf_opcode (row : Instr) (cw : CmdWord) :
    (row.withOperandOf cw).opcode = row.opcode := by
  cases row <;> rfl

/-- The operation's operand is the word's, when the MBZ bits of its format are zero (R61, R62). -/
theorem withOperandOf_operand {hw : Nat} {row : Instr} {cw : CmdWord}
    (h : row.mbzZero hw cw = true) : (row.withOperandOf cw).operand = operandOf cw := by
  cases row with
  | pop | size | recv => exact (of_decide_eq_true h).symm
  | init | rxirq | errirq | boffirq => rfl
  | send | push =>
    exact frameImage_frameOfImage ((mbz_eq_operand_field cw).symm.trans (of_decide_eq_true h))

/-- The MBZ rule of format H is that the handle fits (R61). -/
theorem withOperandOf_wellFormed {hw : Nat} {row : Instr} {cw : CmdWord}
    (h : row.mbzZero hw cw = true) : (row.withOperandOf cw).wellFormed hw = true := by
  cases row with
  | pop | size | recv | send | push => rfl
  | init | rxirq | errirq | boffirq => exact h

/-- Settles O1: the opcode of the word selects the operation's own row, whose MBZ bits are zero. -/
theorem decodeOfEncodeIsIdentity : Obligations.DecodeOfEncodeIsIdentity := fun hw i hi =>
  decode_eq_ok.2 ⟨i, opcodeOf_encode i, (mbzZero_encode hw i).trans hi, (withOperandOf_encode i).symm⟩

/-- Settles O2: the opcode and the operand of the decoded operation are the word's. -/
theorem encodeOfDecodeIsIdentity : Obligations.EncodeOfDecodeIsIdentity := by
  intro hw cw i h
  obtain ⟨row, hop, hmbz, rfl⟩ := decode_eq_ok.1 h
  refine ⟨?_, withOperandOf_wellFormed hmbz⟩
  calc encode (row.withOperandOf cw) = operandOf cw ++ opcodeOf cw := by
        rw [encode, withOperandOf_operand hmbz, withOperandOf_opcode, hop]
    _ = cw := operandOf_append_opcodeOf cw

end Sys2Proof
end

