-- ==== Sys2Proof/Proofs/EncodingTable.lean ====
section
/-! The match and mask columns of the opcode table (30_encoding R63, HANDLE_W = 32): a mask is the MBZ field of
the row's format over the opcode nibble. -/

namespace Sys2Proof

/-! ### Masks -/

/-- Ones in the bits of one field, zeros elsewhere. -/
def fieldMask (n start len : Nat) : BitVec n := (BitVec.allOnes len).setWidth n <<< start

theorem fieldMask_getLsbD {n start len k : Nat} (hk : k < n) :
    (fieldMask n start len).getLsbD k = decide (start ≤ k ∧ k < start + len) := by
  by_cases h : k < start
  · simp [fieldMask, h, Nat.not_le.2 h]
  · have hle : start ≤ k := Nat.not_lt.1 h
    simp [fieldMask, hk, h, hle, Nat.sub_lt_iff_lt_add hle, Nat.add_comm]

/-- A word is zero under the mask of a field exactly when the field is zero. -/
theorem and_fieldMask_eq_zero {n start len : Nat} (x : BitVec n) (h : start + len ≤ n) :
    x &&& fieldMask n start len = 0 ↔ x.extractLsb' start len = 0 := by
  constructor
  · intro hx
    refine extractLsb'_eq_of_getLsbD fun k hk => ?_
    have hbit := congrArg (fun w => w.getLsbD (start + k)) hx
    simpa [fieldMask_getLsbD (show start + k < n by omega), hk] using hbit
  · intro hx
    refine BitVec.eq_of_getLsbD_eq fun k hk => ?_
    rw [BitVec.getLsbD_and, fieldMask_getLsbD hk]
    by_cases hin : start ≤ k ∧ k < start + len
    · have hbit := congrArg (fun w => w.getLsbD (k - start)) hx
      simpa [hin, show k - start < len by omega, show start + (k - start) = k by omega] using hbit
    · simp [hin]

theorem append_eq_append_iff {n m : Nat} {a b : BitVec n} {c d : BitVec m} :
    a ++ c = b ++ d ↔ a = b ∧ c = d := by
  constructor
  · intro h
    have hleft := congrArg (BitVec.extractLsb' m n) h
    have hright := congrArg (BitVec.extractLsb' 0 m) h
    rw [BitVec.extractLsb'_append_eq_left, BitVec.extractLsb'_append_eq_left] at hleft
    rw [BitVec.extractLsb'_append_eq_right, BitVec.extractLsb'_append_eq_right] at hright
    exact ⟨hleft, hright⟩
  · rintro ⟨rfl, rfl⟩
    rfl

/-! ### The columns of the table -/

/-- First bit and width, within the operand, of the MBZ field of a row's format at HANDLE_W = 32 (R61). -/
def Instr.mbzField (row : Instr) : Nat × Nat :=
  match row with
  | .pop | .size | .recv => (0, 108)
  | .init _ | .rxirq _ | .errirq _ | .boffirq _ => (32, 76)
  | .send _ | .push _ => (33, 3)

theorem mbzField_le (row : Instr) : row.mbzField.1 + row.mbzField.2 ≤ 108 := by
  cases row <;> simp [Instr.mbzField]

/-- The mask column of R63. -/
def Instr.mask (row : Instr) : CmdWord := fieldMask 108 row.mbzField.1 row.mbzField.2 ++ 0xF#4

/-- The match column of R63. -/
def Instr.matchWord (row : Instr) : CmdWord := 0#108 ++ row.opcode

theorem handleFits_iff_high_zero (x : Handle) :
    handleFits 32 x = true ↔ x.extractLsb' 32 76 = 0 := by
  rw [handleFits, decide_eq_true_iff, ← BitVec.toNat_inj, BitVec.extractLsb'_toNat]
  have hx := x.isLt
  simp only [BitVec.toNat_zero, BitVec.ofNat_eq_ofNat, Nat.shiftRight_eq_div_pow]
  omega

theorem mbzZero_iff_field_zero (row : Instr) (cw : CmdWord) :
    row.mbzZero 32 cw = true ↔ (operandOf cw).extractLsb' row.mbzField.1 row.mbzField.2 = 0 := by
  cases row with
  | pop | size | recv => simp [Instr.mbzZero, Instr.mbzField]
  | init | rxirq | errirq | boffirq => exact handleFits_iff_high_zero (operandOf cw)
  | send | push => simp [Instr.mbzZero, Instr.mbzField, mbz_eq_operand_field]

/-- `cw & mask == match` is the opcode of the row over MBZ bits that are zero. -/
theorem and_mask_eq_match_iff (row : Instr) (cw : CmdWord) :
    cw &&& row.mask = row.matchWord ↔ opcodeOf cw = row.opcode ∧ row.mbzZero 32 cw = true := by
  have hnibble : opcodeOf cw &&& 0xF#4 = opcodeOf cw := BitVec.and_allOnes
  calc cw &&& row.mask = row.matchWord
      ↔ (operandOf cw ++ opcodeOf cw) &&& row.mask = row.matchWord := by
        rw [operandOf_append_opcodeOf]
    _ ↔ operandOf cw &&& fieldMask 108 row.mbzField.1 row.mbzField.2 = 0 ∧
          opcodeOf cw = row.opcode := by
        rw [Instr.mask, Instr.matchWord, BitVec.and_append, append_eq_append_iff, hnibble]
        rfl
    _ ↔ opcodeOf cw = row.opcode ∧ row.mbzZero 32 cw = true := by
        rw [and_fieldMask_eq_zero _ (mbzField_le row), mbzZero_iff_field_zero, and_comm]

/-! ### Mnemonics -/

namespace Machine

/-- The opcode of a mnemonic, looked up in the table. -/
def opcodeOfMnemonic (name : String) : Option (BitVec 4) :=
  (tableRows.find? fun row => mnemonic row == name).map Instr.opcode

theorem opcodeOfMnemonic_mnemonic (i : Instr) : opcodeOfMnemonic (mnemonic i) = some i.opcode := by
  cases i <;> rfl

/-- No two rows of R63 share a mnemonic. -/
theorem opcode_eq_of_mnemonic_eq {i j : Instr} (h : mnemonic i = mnemonic j) : i.opcode = j.opcode := by
  have hlookup := opcodeOfMnemonic_mnemonic i
  rw [h, opcodeOfMnemonic_mnemonic] at hlookup
  exact (Option.some.inj hlookup).symm

theorem mnemonic_withOperandOf (row : Instr) (cw : CmdWord) :
    mnemonic (row.withOperandOf cw) = mnemonic row := by
  cases row <;> rfl

/-- A word decodes to an operation of a row exactly when it has the row's opcode and no MBZ bit set. -/
theorem decodes_to_row_iff {hw : Nat} (row : Instr) (cw : CmdWord) :
    (∃ i, decode hw cw = .ok i ∧ mnemonic i = mnemonic row) ↔
      opcodeOf cw = row.opcode ∧ row.mbzZero hw cw = true := by
  constructor
  · rintro ⟨i, hdec, hname⟩
    obtain ⟨r, hop, -, rfl⟩ := decode_eq_ok.1 hdec
    have hrow : opcodeOf cw = row.opcode :=
      hop.trans (opcode_eq_of_mnemonic_eq ((mnemonic_withOperandOf r cw).symm.trans hname))
    refine ⟨hrow, ?_⟩
    by_contra hmbz
    rw [decode_of_opcode hrow, if_neg hmbz] at hdec
    cases hdec
  · rintro ⟨hop, hmbz⟩
    exact ⟨row.withOperandOf cw, decode_eq_ok.2 ⟨row, hop, hmbz, rfl⟩, mnemonic_withOperandOf row cw⟩

/-- Mnemonic, match and mask of a row. -/
def tableEntry (row : Instr) : String × CmdWord × CmdWord := (mnemonic row, row.matchWord, row.mask)

/-- Settles O3: the nine entries are `tableEntry` of `tableRows`, and the two conditions are the same. -/
theorem decoderMatchesTheOpcodeTable : Obligations.DecoderMatchesTheOpcodeTable := by
  intro entry hentry cw
  have hmem : entry ∈ tableRows.map tableEntry := hentry
  obtain ⟨row, -, rfl⟩ := List.mem_map.1 hmem
  exact (decodes_to_row_iff row cw).trans (and_mask_eq_match_iff row cw).symm

end Machine

end Sys2Proof
end

