-- ==== Sys2Proof/Proofs/EncodingRefusals.lean ====
section
/-! Which presented words are refused, and by which name (30_encoding R64, R66, 70_reset R145). -/

namespace Sys2Proof.Machine

/-- A command that `accept` refuses is refused by the step. -/
theorem step_of_accept_error {s : State} {agent : Domain} {port : Port} {cw : CmdWord}
    {rest : List Input} {r : Refusal} (hin : s.inputs = .command agent port cw :: rest)
    (h : accept agent port cw s = .error r) : step s = .refused r :=
  step_of_refuse ((nextMove_command hin).trans (commandMove_of_error h))

theorem accept_of_decode_error {s : State} {agent : Domain} {port : Port} {cw : CmdWord}
    {e : DecodeError} (h : decode s.params.handleW cw = .error e) :
    accept agent port cw s = .error (.reservedEncoding e) := by
  rw [accept, h]

/-- The port and the level are checked before the agent (R66 c, log 13). -/
theorem accept_wrongPort {s : State} {agent : Domain} {port : Port} {cw : CmdWord} {i : Instr}
    (hdec : decode s.params.handleW cw = .ok i) (h : i.port ≠ port ∨ i.level ≠ s.params.level) :
    accept agent port cw s = .error .wrongPort := by
  simp only [accept, hdec, if_pos h]

theorem accept_wrongDomain {s : State} {agent : Domain} {port : Port} {cw : CmdWord} {i : Instr}
    (hdec : decode s.params.handleW cw = .ok i) (h : ¬(i.port ≠ port ∨ i.level ≠ s.params.level))
    (hagent : i.domain ≠ agent) : accept agent port cw s = .error .wrongDomain := by
  simp only [accept, hdec, if_neg h, if_pos hagent]

/-- Bit 3 of an operation's word names its domain (R64). -/
theorem domainBit_encode (i : Instr) : Laws.DomainBit.Statement i := by
  cases i with
  | pop => exact Laws.DomainBit.pop
  | size => exact Laws.DomainBit.size
  | recv => exact Laws.DomainBit.recv
  | init h => exact Laws.DomainBit.init h
  | send f => exact Laws.DomainBit.send f
  | push f => exact Laws.DomainBit.push f
  | rxirq src => exact Laws.DomainBit.rxirq src
  | errirq src => exact Laws.DomainBit.errirq src
  | boffirq src => exact Laws.DomainBit.boffirq src

/-- Settles O7: the word is the encoding of what it decodes to (O2), and `accept` refuses the other agent. -/
theorem domainBitNamesTheOnlyAgent : Obligations.DomainBitNamesTheOnlyAgent := by
  intro s agent port cw rest i hin hdec
  obtain ⟨rfl, -⟩ := encodeOfDecodeIsIdentity _ cw i hdec
  refine ⟨(domainBit_encode i).symm, fun hagent => ?_⟩
  by_cases hport : i.port ≠ port ∨ i.level ≠ s.params.level
  · exact .inr (step_of_accept_error hin (accept_wrongPort hdec hport))
  · exact .inl (step_of_accept_error hin (accept_wrongDomain hdec hport hagent.symm))

/-- A word with the opcode of one of `rows` is refused when it breaks the MBZ rule of each (R66 b). -/
theorem step_of_nonZeroMbz {s : State} {agent : Domain} {port : Port} {cw : CmdWord}
    {rest : List Input} (hin : s.inputs = .command agent port cw :: rest) (rows : List Instr)
    (hop : opcodeOf cw ∈ rows.map Instr.opcode)
    (hmbz : ∀ row ∈ rows, ¬row.mbzZero s.params.handleW cw = true) :
    step s = .refused (.reservedEncoding .nonZeroMbz) := by
  obtain ⟨row, hrow, hop⟩ := List.mem_map.1 hop
  refine step_of_accept_error hin (accept_of_decode_error ?_)
  rw [decode_of_opcode hop.symm, if_neg (hmbz row hrow)]

/-- Settles O8: each list of opcodes names the rows of one format, whose MBZ rule the word breaks. -/
theorem reservedEncodingsAreRefused : Obligations.ReservedEncodingsAreRefused := by
  intro s agent port cw rest hin
  refine ⟨fun hop => ?_, fun hop hmbz => ?_, fun hop hmbz => ?_, fun hop hmbz => ?_,
    fun i hdec hport => ?_⟩
  · exact step_of_accept_error hin (accept_of_decode_error (decode_of_reserved hop))
  · exact step_of_nonZeroMbz hin [.pop, .size, .recv] hop (by simpa [Instr.mbzZero] using hmbz)
  · exact step_of_nonZeroMbz hin [.init 0, .rxirq 0, .errirq 0, .boffirq 0] hop
      (by simpa [Instr.mbzZero, handleFits] using hmbz)
  · exact step_of_nonZeroMbz hin [.send Frame.zero, .push Frame.zero] hop
      (by simpa [Instr.mbzZero] using hmbz)
  · exact step_of_accept_error hin (accept_wrongPort hdec hport)

end Sys2Proof.Machine
end

