-- ==== Sys2Proof/Proofs/QueueMicroSteps.lean ====
section
/-! The queue operations micro-step by micro-step (40_queue_ops R80 to R82): where each one goes on, and to
what state. -/

namespace Sys2Proof.Machine

/-! ### PUSH -/

/-- PUSH with room (R80): the newest frame stands in `head`'s slot, and nothing else in the slots moved. -/
theorem exec_push_of_room {s : State} (f : Frame) (hp : s.iPhase = .idle)
    (hserial : s.params.parallelDomains = false) (hhead : s.head < s.params.capacity)
    (hroom : s.count < s.params.capacity) :
    exec (.push f) s = .next
      { s with
        slots := s.slots.write s.head f
        head := nextIndex s.params.capacity s.head
        count := s.count + 1
        responses := s.responses ++ [(.w, .rb 1)] } :=
  execPush_eq_next.2 (.inl ⟨hp, hserial, pushWhole_eq_next.2 (.inr ⟨hroom, hhead, rfl⟩)⟩)

/-- A PUSH in progress takes its next micro-step (R150 d). -/
theorem exec_push_of_busy {s t : State} (f : Frame) (hp : s.iPhase ≠ .idle)
    (h : pushResume (some .w) s = .next t) : exec (.push f) s = .next t :=
  execPush_eq_next.2 (.inr (.inr ⟨hp, h⟩))

/-- Settles O10: a PUSH with room is one write of `head`'s slot. -/
theorem pushStoresAtHead : Obligations.PushStoresAtHead := fun s f hp hserial hhead hroom =>
  ⟨_, exec_push_of_room f hp hserial hhead hroom, rfl, Memory.read_write_same s.slots s.head f,
    fun _ hj => Memory.read_write_other s.slots f hj⟩

/-- Settles O12: W1 by `pushW1_cases`, W2 to W4 by the cases of `pushResume_eq_next`. -/
theorem pushMicroSteps : Obligations.PushMicroSteps := by
  refine fun s f => ⟨fun hp hpar hc => ?_, fun hp hhead => ?_, fun hp => ?_, fun hp hroom => ?_⟩
  · obtain ⟨hfull, -⟩ | ⟨-, he⟩ := pushW1_cases (some .w) f s
    · exact absurd hfull hc
    · exact execPush_eq_next.2 (.inr (.inl ⟨hp, hpar, he.symm⟩))
  · exact ⟨_, exec_push_of_busy f (by simp [hp])
      (pushResume_eq_next.2 (.inr (.inr (.inl ⟨hp, hhead, rfl⟩)))), rfl,
      Memory.read_write_same s.slots s.head s.iFrame,
      fun _ hj => Memory.read_write_other s.slots s.iFrame hj⟩
  · exact exec_push_of_busy f (by simp [hp])
      (pushResume_eq_next.2 (.inr (.inr (.inr (.inl ⟨hp, rfl⟩)))))
  · exact exec_push_of_busy f (by simp [hp])
      (pushResume_eq_next.2 (.inr (.inr (.inr (.inr ⟨hp, hroom, rfl⟩)))))

/-! ### POP -/

/-- P1 that finds a frame (R81). -/
theorem exec_pop_p1 {s : State} (hp : s.tPhase = .idle) (hc : s.count ≠ 0) :
    exec .pop s = .next { s with tPhase := .p2 } :=
  execPop_eq_next.2 (.inr (.inl ⟨hp, hc, rfl⟩))

/-- P2 latches the frame in `tail`'s slot (R81). -/
theorem exec_pop_p2 {s : State} {f : Frame} (hp : s.tPhase = .p2) (htail : s.tail < s.params.capacity)
    (hf : s.slots.read s.tail = some f) :
    exec .pop s = .next { s with tFrame := f, tPhase := .p3 } :=
  execPop_eq_next.2 (.inr (.inr (popResume_eq_next.2 (.inl ⟨hp, htail, f, hf, rfl⟩))))

/-- P3 gives the slot back (R81). -/
theorem exec_pop_p3 {s : State} (hp : s.tPhase = .p3) :
    exec .pop s = .next { s with tail := nextIndex s.params.capacity s.tail, tPhase := .p4 } :=
  execPop_eq_next.2 (.inr (.inr (popResume_eq_next.2 (.inr (.inl ⟨hp, rfl⟩)))))

/-- P4 returns the latched frame (R81). -/
theorem exec_pop_p4 {s : State} (hp : s.tPhase = .p4) (hc : 1 ≤ s.count) :
    exec .pop s = .next
      { s with
        count := s.count - 1
        tPhase := .idle
        responses := s.responses ++ [(.r, .rf (rfWord (some s.tFrame)))] } :=
  execPop_eq_next.2 (.inr (.inr (popResume_eq_next.2 (.inr (.inr ⟨hp, hc, rfl⟩)))))

/-- Settles O13: one lemma for each of P1 to P4. -/
theorem popMicroSteps : Obligations.PopMicroSteps := fun _ =>
  ⟨exec_pop_p1, fun _ => exec_pop_p2, exec_pop_p3, exec_pop_p4⟩

/-! ### SIZE -/

/-- The capacity is below 2^32, so every count fits RC's 32 bits (R68, D24). -/
theorem Params.capacity_lt {p : Params} (h : p.wf = true) : p.capacity < 2 ^ 32 := by
  simp only [Params.wf, Bool.and_eq_true, decide_eq_true_eq] at h
  obtain ⟨⟨⟨-, hlt⟩, -⟩, -⟩ := h
  exact hlt

/-- Settles O15: S1 answers `count`, which the invariant bounds by the capacity and so by 2^32. -/
theorem sizeReportsTheCount : Obligations.SizeReportsTheCount := by
  refine ⟨by decide, rfl, rfl, rfl, fun s => ⟨fun hp => ?_, fun hp => ?_⟩⟩
  · have hword (hlt : s.count < 2 ^ 32) : (BitVec.ofNat 32 s.count).toNat = s.count :=
      (BitVec.toNat_ofNat _ _).trans (Nat.mod_eq_of_lt hlt)
    refine ⟨BitVec.ofNat 32 s.count, execSize_eq_next.2 ⟨hp, rfl⟩, hword, fun hinv => ?_⟩
    have hs := good_of_inv hinv
    have hcount := hs.queue.count_le
    rw [hword (hcount.trans_lt (Params.capacity_lt hs.params_wf)), contents_length]
    exact ⟨rfl, hcount⟩
  · exact if_neg hp

end Sys2Proof.Machine
end

