-- ==== Sys2Proof/Proofs/QueueContents.lean ====
section
/-! The queue operations on the abstract content (40_queue_ops R83, R84): every step is one event of it, which
frame a producer appends, and that a producer leaves the oldest frame to the consumer. -/

namespace Sys2Proof.Machine

/-- Settles O40: every step is one queue event, and `Good` says what each event does to the content. -/
theorem everyStepIsOneQueueEvent : Obligations.EveryStepIsOneQueueEvent :=
  fun _ _ hinv h => step_contents_cases (good_of_inv hinv) h

/-! ### The frame appended -/

/-- A whole PUSH with room goes on, and its frame is the newest (R80, R83 g). -/
theorem Good.pushWhole_appends {s : State} (hs : Good s) (hp : s.iPhase = .idle)
    (hroom : s.count < s.params.capacity) (out : Option Port) (f : Frame) :
    ∃ t, pushWhole out f s = .next t ∧ contents t = contents s ++ [some f] :=
  ⟨_, pushWhole_eq_next.2 (.inr ⟨hroom, hs.queue.head_lt, rfl⟩),
    (sameQueue_pushReturn _ _ _).contents_eq.trans (hs.contents_push (by simp [hp]) hroom f)⟩

/-- W4 goes on, and the frame it counts is that of the PUSH in progress (R84). -/
theorem Good.pushResume_w4_appends {s : State} (hs : Good s) (hp : s.iPhase = .w4)
    (out : Option Port) :
    ∃ t, pushResume out s = .next t ∧ contents t = contents s ++ [some s.iFrame] := by
  have hroom := hs.push.room (.inr (.inr hp))
  have hcounted := contents_countUp s
  rw [hs.push.frame (.inr hp)] at hcounted
  exact ⟨_, pushResume_eq_next.2 (.inr (.inr (.inr (.inr ⟨hp, hroom, rfl⟩)))),
    (sameQueue_pushReturn _ _ _).contents_eq.trans hcounted⟩

/-- Settles O42: PUSH and RXIRQ run a whole PUSH of the frame they offer, W4 counts the one in progress. -/
theorem acceptedFrameIsTheOneOffered : Obligations.AcceptedFrameIsTheOneOffered := by
  refine ⟨fun s f hinv hp hserial hroom => ?_,
    fun s src m hinv hp hserial hready hsrc hanswer hdlc hroom => ?_, fun s f hinv hp => ?_⟩
  · obtain ⟨t, hpush, hc⟩ := (good_of_inv hinv).pushWhole_appends hp hroom (some .w) f
    exact ⟨t, execPush_eq_next.2 (.inl ⟨hp, hserial, hpush⟩), hc⟩
  · have hs : Good (callGetRx src s).2 := (good_of_inv hinv).of_registers_eq rfl
    obtain ⟨t, hpush, hc⟩ := hs.pushWhole_appends hp hroom none (translateRx m)
    have hvalid : rxDlcBad m.hdr = false := decide_eq_false (Nat.not_lt.2 hdlc)
    have hdeliver : rxDeliver src (callGetRx src s).1 (callGetRx src s).2 = .next t :=
      rxDeliver_eq_next.2 (.inr ⟨m, hanswer, hvalid, .inl ⟨hserial, hpush⟩⟩)
    exact ⟨t, execRxirq_eq_next.2 (.inr (.inl ⟨hp, hready, hsrc, hdeliver⟩)), hc⟩
  · obtain ⟨t, hresume, hc⟩ := (good_of_inv hinv).pushResume_w4_appends hp (some .w)
    exact ⟨t, exec_push_of_busy f (by simp [hp]) hresume, hc⟩

/-! ### The oldest frame -/

/-- The content, when it is not empty, begins with the frame the oldest slot holds. -/
theorem Good.contents_head? {s : State} (hs : Good s) (hc : 1 ≤ s.count) :
    (contents s).head? = some (s.slots.read (oldest s)) := by
  rw [hs.contents_eq_cons hc, List.head?_cons]

/-- A producer's micro-step keeps a frame that is the oldest: it can only append (R84). -/
theorem exec_interrupt_keeps_oldest {i : Instr} {s t : State} (hs : Good s)
    (hi : i.domain = .interrupt) (hc : 1 ≤ s.count) (h : exec i s = .next t) :
    (contents t).head? = (contents s).head? := by
  obtain ⟨e, he⟩ := exec_queueEvent h
  obtain ⟨hkept, -⟩ | ⟨f, happended, -, -⟩ | ⟨f, hremoved, -⟩ := he.contents_cases hs
  · rw [hkept]
  · rw [happended, hs.contents_eq_cons hc]
    rfl
  · obtain ⟨-, hcount, -⟩ := exec_interruptFrame hi h
    have hlen := congrArg List.length hremoved
    simp only [List.length_cons, contents_length] at hlen
    omega

/-- Settles O43: a producer only appends, and the consumer's registers are outside its frame. -/
theorem preemptionKeepsTheOldestFrame : Obligations.PreemptionKeepsTheOldestFrame := by
  intro s t i hinv hi _ hp h
  have hs := good_of_inv hinv
  have hc : 1 ≤ s.count := hs.task.pop_count hp
  obtain ⟨ht, -, -⟩ := exec_interruptFrame hi h
  refine ⟨by rw [ht], by rw [ht], exec_interrupt_keeps_oldest hs hi hc h, fun hp2 => ?_⟩
  rw [hs.contents_head? hc, hs.task.pop_frame (hp.resolve_left hp2)]

end Sys2Proof.Machine
end

