-- ==== Sys2Proof/Proofs/QueueRuns.lean ====
section
/-! Whole queue operations through the ports (30_encoding R69, R70, 40_queue_ops R81, R83): the steps of a POP
presented as `popLine`, alone and after a PUSH. -/

namespace Sys2Proof.Machine

/-- A run whose first input presents an operation to its idle domain begins with that operation. -/
theorem runSteps_issue {s t : State} {i : Instr} {rest : List Input} (k : Nat)
    (hin : s.inputs = issue i :: rest) (hw : i.wellFormed s.params.handleW = true)
    (hl : i.level = s.params.level) (htask : i.domain = .task → s.tPhase = .idle)
    (hint : i.domain = .interrupt → s.iPhase = .idle)
    (h : exec i { s with inputs := rest } = .next t) : runSteps (k + 1) s = runSteps k t := by
  have hdec : decode s.params.handleW (encode i) = .ok i := decodeOfEncodeIsIdentity _ i hw
  have hstep := stepRunsTheAcceptedCommand s i.port (encode i) rest i hin hdec rfl hl htask hint
  exact runSteps_of_step k (hstep.trans h)

/-- A run whose first input grants a step to a POP in progress begins with its next micro-step. -/
theorem runSteps_resume_pop {s t : State} {rest : List Input} (k : Nat)
    (hin : s.inputs = .resume .task :: rest) (hl : s.params.level = .queue)
    (hp : s.tPhase = .p2 ∨ s.tPhase = .p3 ∨ s.tPhase = .p4)
    (h : exec .pop { s with inputs := rest } = .next t) : runSteps (k + 1) s = runSteps k t :=
  have hpop : inProgress .task s = some .pop := (taskInProgress_of_pop hp).trans (by rw [if_pos hl])
  runSteps_of_step k ((step_of_inProgress hin hpop).trans h)

/-- The four steps of a POP that finds `f` in `tail`'s slot, whatever the interrupt domain has in
progress (R81). -/
theorem runSteps_popLine {s : State} {f : Frame} (hl : s.params.level = .queue)
    (hp : s.tPhase = .idle) (hc : s.count ≠ 0) (htail : s.tail < s.params.capacity)
    (hf : s.slots.read s.tail = some f) :
    runSteps 4 { s with inputs := popLine } = .next
      { s with
        tail := nextIndex s.params.capacity s.tail
        count := s.count - 1
        tPhase := .idle
        tFrame := f
        inputs := []
        responses := s.responses ++ [(.r, .rf (rfWord (some f)))] } :=
  calc runSteps 4 { s with inputs := popLine }
      = runSteps 3 { s with
          tPhase := .p2
          inputs := [.resume .task, .resume .task, .resume .task] } :=
        runSteps_issue 3 rfl rfl hl.symm (fun _ => hp) (fun hi => by cases hi) (exec_pop_p1 hp hc)
    _ = runSteps 2 { s with
          tFrame := f
          tPhase := .p3
          inputs := [.resume .task, .resume .task] } :=
        runSteps_resume_pop 2 rfl hl (.inl rfl) (exec_pop_p2 rfl htail hf)
    _ = runSteps 1 { s with
          tail := nextIndex s.params.capacity s.tail
          tFrame := f
          tPhase := .p4
          inputs := [.resume .task] } :=
        runSteps_resume_pop 1 rfl hl (.inr (.inl rfl)) (exec_pop_p3 rfl)
    _ = _ :=
        runSteps_resume_pop 0 rfl hl (.inr (.inr rfl))
          (exec_pop_p4 rfl (Nat.one_le_iff_ne_zero.2 hc))

/-- Settles O16: the oldest frame stands in `tail`'s slot, where `runSteps_popLine` finds it. -/
theorem popReturnsTheOldestFrame : Obligations.PopReturnsTheOldestFrame := by
  rintro s hinv ⟨hp, -⟩ hl hc
  have hs := good_of_inv hinv
  have hcount : 1 ≤ s.count := Nat.one_le_iff_ne_zero.2 hc
  have hhead := hs.contents_head? hcount
  have hwritten := hs.queue.written 0 hcount
  have hold : oldest s = s.tail := oldest_of_ne_p4 (by simp [hp])
  rw [hold] at hhead
  rw [hold, Nat.add_zero, Nat.mod_eq_of_lt hs.tail_lt] at hwritten
  obtain ⟨f, hf⟩ := Option.isSome_iff_exists.1 hwritten
  refine ⟨f, hhead.trans (congrArg some hf), ?_⟩
  rw [runSteps_popLine hl hp hc hs.tail_lt hf, ← hp]
  rfl

/-- Settles O17: an empty queue has `head` at `tail`, so POP reads the slot PUSH wrote. -/
theorem pushThenPopRoundTrip : Obligations.PushThenPopRoundTrip := by
  rintro s f hinv ⟨hp, hi⟩ hl hserial hempty
  have hs := good_of_inv hinv
  have hroom : s.count < s.params.capacity := hempty ▸ Params.capacity_pos hs.params_wf
  have hhead : s.head = s.tail := by
    rw [hs.queue.head_of_ne_w4 (by simp [hi]), oldest_of_ne_p4 (by simp [hp]), hempty, Nat.add_zero,
      Nat.mod_eq_of_lt hs.tail_lt]
  have hread : (s.slots.write s.head f).read s.tail = some f := by
    rw [hhead, Memory.read_write_same]
  have hpush := runSteps_issue (s := { s with inputs := issue (.push f) :: popLine }) 4 rfl rfl hl.symm
    (fun ht => by cases ht) (fun _ => hi) (exec_push_of_room f hi hserial hs.queue.head_lt hroom)
  have hpop := runSteps_popLine (s := { s with
      slots := s.slots.write s.head f
      head := nextIndex s.params.capacity s.head
      count := s.count + 1
      responses := s.responses ++ [(.w, .rb 1)] }) hl hp (Nat.succ_ne_zero _) hs.tail_lt hread
  exact ⟨_, hpush.trans hpop, List.append_assoc _ _ _, hempty, rfl, hi⟩

end Sys2Proof.Machine
end

