-- ==== Sys2Proof/Proofs/DriverSteps.lean ====
section
/-! The driver's task-domain operations micro-step by micro-step (41_driver_ops R90 to R92): where each one
goes on, and to what state. -/

namespace Sys2Proof.Machine

/-! ### INIT -/

/-- I1 (R90): the answer to `CfgFilter` decides between I2 and a false response. -/
theorem exec_init_i1 {s : State} (h : Handle) (hp : s.tPhase = .idle) (hd : s.drvState = .uninitialized) :
    let a := takeAnswer s.env.cfgFilter Config.freeAck s.draws
    exec (.init h) s = .next
      { s with
        tArg := h
        tPhase := if a.1 then .i2 else .idle
        env := { s.env with cfgFilter := a.2.1 }
        draws := a.2.2
        calls := s.calls ++ [.cfgFilter h ⟨0, 0⟩]
        responses := if a.1 then s.responses else s.responses ++ [(.t, .rb 0)] } := by
  refine execInit_eq_next.2 (.inl ⟨hp, hd, ?_⟩)
  cases ha : (takeAnswer s.env.cfgFilter Config.freeAck s.draws).1 with
  | true => simp [callCfgFilter, ha, acceptAll]
  | false => simp [callCfgFilter, ha, acceptAll, respond, respBool, hp]

/-- I2 (R90): the answer to `Start` decides between I3 and a false response. -/
theorem exec_init_i2 {s : State} (h : Handle) (hp : s.tPhase = .i2) :
    let a := takeAnswer s.env.start Config.freeAck s.draws
    exec (.init h) s = .next
      { s with
        tPhase := if a.1 then .i3 else .idle
        env := { s.env with start := a.2.1 }
        draws := a.2.2
        calls := s.calls ++ [.start s.tArg]
        responses := if a.1 then s.responses else s.responses ++ [(.t, .rb 0)] } := by
  refine execInit_eq_next.2 (.inr (.inl ⟨hp, ?_⟩))
  rw [initI2_eq, callStart_answer]
  split <;> rfl

/-- I3 (R90): the answer to `ActNotify` is INIT's response; a true one commits the handle and Ready. -/
theorem exec_init_i3 {s : State} (h : Handle) (hp : s.tPhase = .i3) :
    let a := takeAnswer s.env.actNotify Config.freeAck s.draws
    exec (.init h) s = .next
      { s with
        tPhase := .idle
        handle := if a.1 then some s.tArg else s.handle
        drvState := if a.1 then .ready else s.drvState
        env := { s.env with actNotify := a.2.1 }
        draws := a.2.2
        calls := s.calls ++ [.actNotify s.tArg [.rxPending, .busError, .busOff]]
        responses := s.responses ++ [(.t, .rb (if a.1 then 1 else 0))] } := by
  refine execInit_eq_next.2 (.inr (.inr ⟨hp, ?_⟩))
  rw [initI3_eq]
  dsimp only
  rw [callActNotify_answer]
  split <;> rfl

/-- Settles O18: one lemma for each of I1 to I3. -/
theorem initMicroSteps : Obligations.InitMicroSteps := fun _ h =>
  ⟨exec_init_i1 h, exec_init_i2 h, exec_init_i3 h⟩

/-- Settles O19: I1 tests for Ready before anything else. -/
theorem initWhileReadyIsRefused : Obligations.InitWhileReadyIsRefused := by
  intro s h hp hd
  have hready : driverReady s = true := beq_iff_eq.2 hd
  rw [exec, execInit, hp]
  exact if_pos hready

/-! ### SEND -/

/-- A valid frame (R11) by its length and its identifier's bound. -/
theorem validFrame_iff {f : Frame} :
    validFrame f = true ↔ f.dlc.toNat ≤ 8 ∧ (f.extended = true → f.id.toNat ≤ 0x1FFFFFFF) ∧
      (f.extended = false → f.id.toNat ≤ 0x7FF) := by
  cases hext : f.extended <;> simp [validFrame, hext] <;> rfl

/-- T1 of a valid frame in Ready latches it (R91). -/
theorem exec_send_t1 {s : State} {f : Frame} (hp : s.tPhase = .idle) (hd : s.drvState = .ready)
    (hf : validFrame f = true) : exec (.send f) s = .next { s with tFrame := f, tPhase := .t2 } :=
  execSend_eq_next.2 (.inr (.inl ⟨hp, hd, hf, rfl⟩))

/-- T2 with a handle submits the latched frame (R91). -/
theorem sendT2_of_handle {s : State} {h : Handle} (hh : s.handle = some h) :
    sendT2 s =
      let r := callAddTx h (txHeader s.tFrame) s.tFrame.data s
      respond .t (respBool r.1) { r.2 with tPhase := .idle } := by
  rw [sendT2, hh]

/-- T2 makes one `AddTx` call, and its answer is SEND's response (R91). -/
theorem exec_send_t2 {s : State} (f : Frame) {h : Handle} (hp : s.tPhase = .t2)
    (hh : s.handle = some h) :
    let a := takeAnswer s.env.addTx Config.freeAck s.draws
    exec (.send f) s = .next
      { s with
        tPhase := .idle
        env := { s.env with addTx := a.2.1 }
        draws := a.2.2
        calls := s.calls ++ [.addTx h (txHeader s.tFrame) s.tFrame.data]
        responses := s.responses ++ [(.t, respBool a.1)] } := by
  refine execSend_eq_next.2 (.inr (.inr ⟨hp, ?_⟩))
  rw [sendT2_of_handle hh]
  rfl

/-- T2 without a handle answers false and calls nothing (R23, log 11). -/
theorem exec_send_t2_of_no_handle {s : State} (f : Frame) (hp : s.tPhase = .t2)
    (hh : s.handle = none) :
    exec (.send f) s = .next
      { s with tPhase := .idle, responses := s.responses ++ [(.t, .rb 0)] } := by
  refine execSend_eq_next.2 (.inr (.inr ⟨hp, ?_⟩))
  rw [sendT2, hh]
  rfl

/-- RB of a boolean, as the bit R68 gives it. -/
theorem respBool_eq_ite (b : Bool) : respBool b = .rb (if b then 1 else 0) := by
  cases b <;> rfl

/-- Settles O23: `validFrame_iff` turns T1's hypotheses into its guard; T2 is one lemma with a handle and
one without. -/
theorem sendMicroSteps : Obligations.SendMicroSteps := by
  refine ⟨fun s f hp hd hdlc hext hstd => exec_send_t1 hp hd (validFrame_iff.2 ⟨hdlc, hext, hstd⟩),
    fun s f h hp hh => ?_, fun s f => exec_send_t2_of_no_handle f⟩
  dsimp only
  rw [← respBool_eq_ite]
  exact exec_send_t2 f hp hh

/-! ### RECV -/

/-- P1 in Ready that finds a frame (R92). -/
theorem exec_recv_p1 {s : State} (hp : s.tPhase = .idle) (hd : s.drvState = .ready) (hc : s.count ≠ 0) :
    exec .recv s = .next { s with tPhase := .p2 } :=
  execRecv_eq_next.2 (.inr (.inl ⟨hp, hd, hc, rfl⟩))

/-- A RECV in progress takes POP's next micro-step, answering on the T-port (R92). -/
theorem exec_recv_of_popResume {s t : State} (h : popResume .t s = .next t) : exec .recv s = .next t :=
  execRecv_eq_next.2 (.inr (.inr h))

/-- Settles O26: P1 after the ready test, then P2 to P4 by the cases of `popResume_eq_next`. -/
theorem recvMicroSteps : Obligations.RecvMicroSteps := fun _ =>
  ⟨exec_recv_p1,
    fun f hp htail hf => exec_recv_of_popResume (popResume_eq_next.2 (.inl ⟨hp, htail, f, hf, rfl⟩)),
    fun hp => exec_recv_of_popResume (popResume_eq_next.2 (.inr (.inl ⟨hp, rfl⟩))),
    fun hp hc => exec_recv_of_popResume (popResume_eq_next.2 (.inr (.inr ⟨hp, hc, rfl⟩)))⟩

end Sys2Proof.Machine
end

