-- ==== Sys2Proof/Proofs/DriverHeaders.lean ====
section
/-! The transmit header against the receive translation (41_driver_ops R91, 42_interrupt_ops R103): each
header field is wide enough for what a valid frame puts in it. -/

namespace Sys2Proof.Machine

/-- A value that fits `k` bits survives being cut to `k` bits and extended again. -/
theorem setWidth_extractLsb'_of_lt {n k : Nat} {x : BitVec n} (h : x.toNat < 2 ^ k) :
    (x.extractLsb' 0 k).setWidth n = x := by
  apply BitVec.eq_of_toNat_eq
  rw [BitVec.toNat_setWidth, BitVec.extractLsb'_toNat, Nat.shiftRight_zero, Nat.mod_eq_of_lt h,
    Nat.mod_eq_of_lt x.isLt]

/-- The identifier field the selector chooses holds the whole identifier (R11, R91). -/
theorem translateRx_txHeader_id {f : Frame} (hf : validFrame f = true) :
    (translateRx ⟨txHeader f, f.data⟩).id = f.id := by
  obtain ⟨-, hext, hstd⟩ := validFrame_iff.1 hf
  cases he : f.extended with
  | false =>
    have hid : f.id.toNat < 2 ^ 11 := Nat.lt_succ_of_le (hstd he)
    simpa [translateRx, txHeader, he] using setWidth_extractLsb'_of_lt hid
  | true =>
    have hid : f.id.toNat < 2 ^ 29 := Nat.lt_succ_of_le (hext he)
    simpa [translateRx, txHeader, he] using setWidth_extractLsb'_of_lt hid

/-- A valid length is at most 8, so the 4-bit length field holds it (R11, R91). -/
theorem txHeader_dlc_setWidth {f : Frame} (hf : validFrame f = true) :
    (txHeader f).dlc.setWidth 8 = f.dlc :=
  setWidth_extractLsb'_of_lt (Nat.lt_of_le_of_lt (validFrame_iff.1 hf).1 (by decide))

/-- Settles O25: field by field, the identifier and the length being the two that are cut. -/
theorem transmitHeaderLosesNothing : Obligations.TransmitHeaderLosesNothing := by
  intro f hf
  have hdlc := txHeader_dlc_setWidth hf
  refine ⟨Frame.ext (translateRx_txHeader_id hf) rfl hdlc rfl, decide_eq_false (Nat.not_lt.2 ?_)⟩
  obtain ⟨hle, -⟩ := validFrame_iff.1 hf
  rwa [← hdlc, BitVec.toNat_setWidth_of_le (by decide)] at hle

end Sys2Proof.Machine
end

