-- ==== Sys2Proof/Proofs/DriverRuns.lean ====
section
/-! A whole driver operation through the ports (30_encoding R70, R71, 41_driver_ops R90): the steps of an INIT
presented as `initLine`. -/

namespace Sys2Proof.Machine

/-- A run whose first input grants a step to an INIT in progress begins with its next micro-step. -/
theorem runSteps_resume_init {s t : State} {rest : List Input} (k : Nat)
    (hin : s.inputs = .resume .task :: rest) (hp : s.tPhase = .i2 ∨ s.tPhase = .i3)
    (h : exec (.init s.tArg) { s with inputs := rest } = .next t) : runSteps (k + 1) s = runSteps k t :=
  have hinit : inProgress .task s = some (.init s.tArg) := taskInProgress_of_init hp
  runSteps_of_step k ((step_of_inProgress hin hinit).trans h)

/-- Settles O20: I1, I2 and I3, each finding the answer true that `initOk` placed. -/
theorem successfulInitMakesTheDriverReady : Obligations.SuccessfulInitMakesTheDriverReady := by
  rintro s h ⟨hp, -⟩ hl hd hfits
  calc runSteps 3 { initOk h s with inputs := initLine h }
      = runSteps 2 { s with
          tArg := h
          tPhase := .i2
          inputs := [.resume .task, .resume .task]
          env := { s.env with start := true :: s.env.start, actNotify := true :: s.env.actNotify }
          calls := s.calls ++ [.cfgFilter h ⟨0, 0⟩] } :=
        runSteps_issue 2 rfl hfits hl.symm (fun _ => hp) (fun hi => by cases hi) (exec_init_i1 h hp hd)
    _ = runSteps 1 { s with
          tArg := h
          tPhase := .i3
          inputs := [.resume .task]
          env := { s.env with actNotify := true :: s.env.actNotify }
          calls := s.calls ++ [.cfgFilter h ⟨0, 0⟩] ++ [.start h] } :=
        runSteps_resume_init 1 rfl (.inl rfl) (exec_init_i2 h rfl)
    _ = .next { s with
          tArg := h
          tPhase := .idle
          handle := some h
          drvState := .ready
          inputs := []
          calls := s.calls ++ [.cfgFilter h ⟨0, 0⟩] ++ [.start h] ++ [.actNotify h allNotifications]
          responses := s.responses ++ [(.t, .rb 1)] } :=
        runSteps_resume_init 0 rfl (.inr rfl) (exec_init_i3 h rfl)
    _ = _ := by
        rw [List.append_assoc, List.append_assoc, ← hp]
        rfl

end Sys2Proof.Machine
end

