-- ==== Sys2Proof/Proofs/InterruptSteps.lean ====
section
/-! The interrupt-domain operations step by step (42_interrupt_ops R100 to R103): what RXIRQ does with an
event that is not its own, with a received message and with the PUSH inside it, and that the error events
do nothing. -/

namespace Sys2Proof.Machine

/-! ### RXIRQ's X1 -/

/-- In Ready, for its own handle, X1 fetches once and delivers the answer (R100). -/
theorem exec_rxirq_of_own_handle {s : State} {src : Handle} (hp : s.iPhase = .idle)
    (hready : s.drvState = .ready) (hsrc : s.handle = some src) :
    exec (.rxirq src) s = rxDeliver src (callGetRx src s).1 (callGetRx src s).2 := by
  have hown : (driverReady s && handleMatches src s) = true := by
    simp [driverReady, handleMatches, hready, hsrc]
  rw [exec, execRxirq, hp]
  exact if_pos hown

/-- Settles O27: either disjunct falsifies one of X1's two tests. -/
theorem foreignEventIsIgnored : Obligations.ForeignEventIsIgnored := by
  intro s src hp hforeign
  refine execRxirq_eq_next.2 (.inl ⟨hp, ?_, rfl⟩)
  rintro ⟨hready, hsrc⟩
  rcases hforeign with hun | hother
  · simp [hun] at hready
  · exact hother hsrc

/-! ### A received message -/

/-- The length test of a received header (R103). -/
theorem rxDlcBad_eq_true {hdr : Header} (h : 8 < hdr.dlc.toNat) : rxDlcBad hdr = true :=
  decide_eq_true h

theorem rxDlcBad_eq_false {hdr : Header} (h : hdr.dlc.toNat ≤ 8) : rxDlcBad hdr = false :=
  decide_eq_false (Nat.not_lt.2 h)

/-- A message of length above 8 is refused whatever the state (R103). -/
theorem rxDeliver_refused {src : Handle} {m : RxMessage} (s : State) (h : 8 < m.hdr.dlc.toNat) :
    rxDeliver src (some m) s = .refused .rxDlcOutOfRange :=
  if_pos (rxDlcBad_eq_true h)

/-- Settles O31: `rxDeliver` tests the length first, and `validFrame_translateRx` is the other side. -/
theorem receivedLengthIsBounded : Obligations.ReceivedLengthIsBounded := by
  refine ⟨fun s src m hp hready hsrc hanswer hlong => ?_,
    fun m hdlc => validFrame_translateRx (rxDlcBad_eq_false hdlc)⟩
  have hfetched : (callGetRx src s).1 = some m := hanswer
  rw [exec_rxirq_of_own_handle hp hready hsrc, hfetched]
  exact rxDeliver_refused _ hlong

/-- Settles O29: the fetch leaves the queue as it was, so the delivery is a whole PUSH with room, or with
PARALLEL_DOMAINS = true a latch. -/
theorem rxirqStoresOneTranslatedFrame : Obligations.RxirqStoresOneTranslatedFrame := by
  intro s src m hp hready hsrc hanswer hdlc
  have hvalid := rxDlcBad_eq_false hdlc
  rw [exec_rxirq_of_own_handle hp hready hsrc]
  refine ⟨fun hserial hhead hroom => ?_, fun hpar => ?_⟩
  · have hpush := (pushWhole_eq_next (out := none) (f := translateRx m)
      (s := (callGetRx src s).2)).2 (.inr ⟨hroom, hhead, rfl⟩)
    exact ⟨_, rxDeliver_eq_next.2 (.inr ⟨m, hanswer, hvalid, .inl ⟨hserial, hpush⟩⟩), rfl,
      Memory.read_write_same s.slots s.head (translateRx m),
      fun _ hj => Memory.read_write_other s.slots (translateRx m) hj⟩
  · exact rxDeliver_eq_next.2 (.inr ⟨m, hanswer, hvalid, .inr ⟨hpar, rfl⟩⟩)

/-! ### The PUSH inside RXIRQ -/

/-- W1 with room goes on to W2, the frame staying latched (R80). -/
theorem pushResume_w1 (out : Option Port) {s : State} (hp : s.iPhase = .w1)
    (hc : s.count ≠ s.params.capacity) : pushResume out s = .next { s with iPhase := .w2 } := by
  obtain ⟨hfull, -⟩ | ⟨-, he⟩ := pushW1_cases out s.iFrame s
  · exact absurd hfull hc
  · exact pushResume_eq_next.2 (.inr (.inl ⟨hp, he.symm⟩))

/-- W2 writes the latched frame into `head`'s slot (R80). -/
theorem pushResume_w2 (out : Option Port) {s : State} (hp : s.iPhase = .w2)
    (hhead : s.head < s.params.capacity) :
    pushResume out s = .next { s with slots := s.slots.write s.head s.iFrame, iPhase := .w3 } :=
  pushResume_eq_next.2 (.inr (.inr (.inl ⟨hp, hhead, rfl⟩)))

/-- W3 advances `head` (R80). -/
theorem pushResume_w3 (out : Option Port) {s : State} (hp : s.iPhase = .w3) :
    pushResume out s = .next { s with head := nextIndex s.params.capacity s.head, iPhase := .w4 } :=
  pushResume_eq_next.2 (.inr (.inr (.inr (.inl ⟨hp, rfl⟩))))

/-- W4 counts the frame and returns (R80). -/
theorem pushResume_w4 (out : Option Port) {s : State} (hp : s.iPhase = .w4)
    (hroom : s.count < s.params.capacity) :
    pushResume out s = .next (pushReturn out true { s with count := s.count + 1, iPhase := .idle }) :=
  pushResume_eq_next.2 (.inr (.inr (.inr (.inr ⟨hp, hroom, rfl⟩))))

/-- In a phase of PUSH, RXIRQ is that PUSH's next micro-step, its result discarded (R100, R150 d). -/
theorem exec_rxirq_of_busy {s : State} {p : IPhase} (src : Handle) (hp : s.iPhase = p)
    (hbusy : p ≠ .idle) : exec (.rxirq src) s = pushResume none s := by
  rw [exec, execRxirq, hp]
  cases p with
  | idle => exact absurd rfl hbusy
  | w1 | w2 | w3 | w4 => rfl

/-- Settles O30: RXIRQ is `pushResume none` in W1 to W4, and there is one lemma for each of them. -/
theorem rxirqPushMicroSteps : Obligations.RxirqPushMicroSteps := fun s src =>
  ⟨fun hp hc => (exec_rxirq_of_busy src hp nofun).trans (pushResume_w1 none hp hc),
    fun hp hhead => ⟨_, (exec_rxirq_of_busy src hp nofun).trans (pushResume_w2 none hp hhead), rfl,
      Memory.read_write_same s.slots s.head s.iFrame,
      fun _ hj => Memory.read_write_other s.slots s.iFrame hj⟩,
    fun hp => (exec_rxirq_of_busy src hp nofun).trans (pushResume_w3 none hp),
    fun hp hroom => (exec_rxirq_of_busy src hp nofun).trans (pushResume_w4 none hp hroom)⟩

/-! ### Error events -/

/-- Settles O32: both meanings go on to the state they found. -/
theorem errorEventsHaveNoEffect : Obligations.ErrorEventsHaveNoEffect :=
  fun _ src => ⟨execErrirq_eq_next (src := src) |>.2 rfl, execBoffirq_eq_next (src := src) |>.2 rfl⟩

end Sys2Proof.Machine
end

