-- ==== Sys2Proof/Proofs/ExceptionProgress.lean ====
section
/-! Nothing in the block traps (60_exceptions R110): from a good state every operation goes on but for the two
situations the spec refuses (R118), so no step faults. -/

namespace Sys2Proof.Machine

/-! ### The queue micro-steps -/

/-- The frames that `count` counts begin in `tail`'s slot unless a POP is between P3 and P4 (R18). -/
theorem Good.tail_written {s : State} (hs : Good s) (hp : s.tPhase ≠ .p4) (hc : 1 ≤ s.count) :
    ∃ f, s.slots.read s.tail = some f := by
  have hwritten := hs.queue.written 0 hc
  rw [oldest_of_ne_p4 hp, Nat.add_zero, Nat.mod_eq_of_lt hs.tail_lt] at hwritten
  exact Option.isSome_iff_exists.1 hwritten

/-- A POP in progress goes on: it has something to take (R81). -/
theorem Good.popResume_goes_on {s : State} (hs : Good s)
    (hp : s.tPhase = .p2 ∨ s.tPhase = .p3 ∨ s.tPhase = .p4) (out : Port) :
    ∃ t, popResume out s = .next t := by
  have hc : 1 ≤ s.count := hs.task.pop_count hp
  obtain hp | hp | hp := hp
  · obtain ⟨f, hf⟩ := hs.tail_written (by simp [hp]) hc
    exact ⟨_, popResume_eq_next.2 (.inl ⟨hp, hs.tail_lt, f, hf, rfl⟩)⟩
  · exact ⟨_, popResume_eq_next.2 (.inr (.inl ⟨hp, rfl⟩))⟩
  · exact ⟨_, popResume_eq_next.2 (.inr (.inr ⟨hp, hc, rfl⟩))⟩

/-- A whole PUSH goes on, with room or without (R80). -/
theorem Good.pushWhole_goes_on {s : State} (hs : Good s) (out : Option Port) (f : Frame) :
    ∃ t, pushWhole out f s = .next t := by
  obtain hfull | hroom := hs.queue.count_le.eq_or_lt
  · exact ⟨_, pushWhole_eq_next.2 (.inl ⟨hfull, rfl⟩)⟩
  · exact ⟨_, pushWhole_eq_next.2 (.inr ⟨hroom, hs.queue.head_lt, rfl⟩)⟩

/-- A PUSH in progress goes on: past W1 it has room (R80, R150 d). -/
theorem Good.pushResume_goes_on {s : State} (hs : Good s) (out : Option Port) :
    ∃ t, pushResume out s = .next t := by
  cases hp : s.iPhase with
  | idle => exact ⟨_, pushResume_eq_next.2 (.inl ⟨hp, rfl⟩)⟩
  | w1 => exact ⟨_, pushResume_eq_next.2 (.inr (.inl ⟨hp, rfl⟩))⟩
  | w2 => exact ⟨_, pushResume_w2 out hp hs.queue.head_lt⟩
  | w3 => exact ⟨_, pushResume_w3 out hp⟩
  | w4 => exact ⟨_, pushResume_w4 out hp (hs.push.room (.inr (.inr hp)))⟩

/-! ### Task-domain operations -/

/-- An operation started in an idle task domain goes on, in every state, but for INIT while Ready
(R90 e, D14). -/
theorem exec_task_of_idle {s : State} {i : Instr} (hi : i.domain = .task) (hp : s.tPhase = .idle) :
    (∃ t, exec i s = .next t) ∨
      ∃ h, i = .init h ∧ s.drvState = .ready ∧ exec i s = .refused .initWhileReady := by
  cases i with
  | pop => exact .inl ⟨_, if_pos hp⟩
  | size => exact .inl ⟨_, if_pos hp⟩
  | recv => exact .inl ⟨_, if_pos hp⟩
  | init h =>
    cases hd : s.drvState with
    | uninitialized => exact .inl ⟨_, exec_init_i1 h hp hd⟩
    | ready => exact .inr ⟨h, rfl, rfl, initWhileReadyIsRefused s h hp hd⟩
  | send f =>
    by_cases hok : s.drvState = .ready ∧ validFrame f = true
    · exact .inl ⟨_, exec_send_t1 hp hok.1 hok.2⟩
    · exact .inl ⟨_, execSend_eq_next.2 (.inl ⟨hp, hok, rfl⟩)⟩
  | push | rxirq | errirq | boffirq => cases hi

/-- The task-domain operation in progress goes on. -/
theorem Good.taskInProgress_goes_on {s : State} (hs : Good s) {i : Instr}
    (h : taskInProgress s = some i) : ∃ t, exec i s = .next t := by
  have hpop (hp : s.tPhase = .p2 ∨ s.tPhase = .p3 ∨ s.tPhase = .p4) : ∃ t, exec i s = .next t := by
    obtain ⟨t, ht⟩ := hs.popResume_goes_on hp .r
    obtain ⟨u, hu⟩ := hs.popResume_goes_on hp .t
    rw [taskInProgress_of_pop hp] at h
    cases h
    split
    · exact ⟨t, execPop_eq_next.2 (.inr (.inr ht))⟩
    · exact ⟨u, exec_recv_of_popResume hu⟩
  cases hp : s.tPhase with
  | idle => simp [taskInProgress_of_idle hp] at h
  | p2 => exact hpop (.inl hp)
  | p3 => exact hpop (.inr (.inl hp))
  | p4 => exact hpop (.inr (.inr hp))
  | i2 =>
    rw [taskInProgress_of_init (.inl hp)] at h
    cases h
    exact ⟨_, exec_init_i2 _ hp⟩
  | i3 =>
    rw [taskInProgress_of_init (.inr hp)] at h
    cases h
    exact ⟨_, exec_init_i3 _ hp⟩
  | t2 =>
    rw [taskInProgress_of_send hp] at h
    cases h
    exact ⟨_, execSend_eq_next.2 (.inr (.inr ⟨hp, rfl⟩))⟩

/-! ### Interrupt-domain operations -/

/-- PUSH goes on in every phase of the interrupt domain (R80). -/
theorem Good.exec_push_goes_on {s : State} (hs : Good s) (f : Frame) :
    ∃ t, exec (.push f) s = .next t := by
  by_cases hp : s.iPhase = .idle
  · cases hpar : s.params.parallelDomains with
    | false =>
      obtain ⟨t, ht⟩ := hs.pushWhole_goes_on (some .w) f
      exact ⟨t, execPush_eq_next.2 (.inl ⟨hp, hpar, ht⟩)⟩
    | true => exact ⟨_, execPush_eq_next.2 (.inr (.inl ⟨hp, hpar, rfl⟩))⟩
  · obtain ⟨t, ht⟩ := hs.pushResume_goes_on (some .w)
    exact ⟨t, exec_push_of_busy f hp ht⟩

/-- RXIRQ's delivery goes on but for a received length above 8 (R103, D19). -/
theorem Good.rxDeliver_goes_on {s : State} (hs : Good s) (src : Handle) (r : Option RxMessage) :
    (∃ t, rxDeliver src r s = .next t) ∨ rxDeliver src r s = .refused .rxDlcOutOfRange := by
  cases r with
  | none => exact .inl ⟨s, rfl⟩
  | some m =>
    by_cases hlong : 8 < m.hdr.dlc.toNat
    · exact .inr (rxDeliver_refused s hlong)
    · have hvalid := rxDlcBad_eq_false (Nat.not_lt.1 hlong)
      cases hpar : s.params.parallelDomains with
      | false =>
        obtain ⟨t, ht⟩ := hs.pushWhole_goes_on none (translateRx m)
        exact .inl ⟨t, rxDeliver_eq_next.2 (.inr ⟨m, rfl, hvalid, .inl ⟨hpar, ht⟩⟩)⟩
      | true => exact .inl ⟨_, rxDeliver_eq_next.2 (.inr ⟨m, rfl, hvalid, .inr ⟨hpar, rfl⟩⟩)⟩

/-- RXIRQ goes on but for a received length above 8, which it can only meet in Ready (R100, R103). -/
theorem Good.exec_rxirq_goes_on {s : State} (hs : Good s) (src : Handle) :
    (∃ t, exec (.rxirq src) s = .next t) ∨
      s.drvState = .ready ∧ exec (.rxirq src) s = .refused .rxDlcOutOfRange := by
  by_cases hp : s.iPhase = .idle
  · by_cases hown : s.drvState = .ready ∧ s.handle = some src
    · obtain ⟨hready, hsrc⟩ := hown
      have hfetched : Good (callGetRx src s).2 := hs.of_registers_eq rfl
      rw [exec_rxirq_of_own_handle hp hready hsrc]
      exact (hfetched.rxDeliver_goes_on src _).imp_right fun hrefused => ⟨hready, hrefused⟩
    · exact .inl ⟨s, execRxirq_eq_next.2 (.inl ⟨hp, hown, rfl⟩)⟩
  · rw [exec_rxirq_of_busy src rfl hp]
    exact .inl (hs.pushResume_goes_on none)

/-- An interrupt-domain operation goes on but for a received length above 8 (R104, R126). -/
theorem Good.exec_interrupt_goes_on {s : State} (hs : Good s) {i : Instr} (hi : i.domain = .interrupt) :
    (∃ t, exec i s = .next t) ∨
      ∃ src, i = .rxirq src ∧ s.drvState = .ready ∧ exec i s = .refused .rxDlcOutOfRange := by
  cases i with
  | pop | size | recv | init | send => cases hi
  | push f => exact .inl (hs.exec_push_goes_on f)
  | rxirq src => exact (hs.exec_rxirq_goes_on src).imp_right fun hrefused => ⟨src, rfl, hrefused⟩
  | errirq src => exact .inl ⟨s, (errorEventsHaveNoEffect s src).1⟩
  | boffirq src => exact .inl ⟨s, (errorEventsHaveNoEffect s src).2⟩

/-! ### Every operation, every step -/

/-- Settles O37: a task-domain operation starts idle or is the one in progress; an interrupt-domain operation
goes on in every phase. -/
theorem everyOperationGoesOn : Obligations.EveryOperationGoesOn := by
  intro s i hinv _ htask
  have hs := good_of_inv hinv
  cases hi : i.domain with
  | interrupt => exact (hs.exec_interrupt_goes_on hi).imp_right .inr
  | task =>
    obtain hidle | hprogress := htask hi
    · exact (exec_task_of_idle hi hidle).imp_right .inl
    · exact .inl (hs.taskInProgress_goes_on hprogress)

/-- A step runs a task-domain operation only from an idle task domain, or the one in progress (R26, R27). -/
theorem nextMove_run_task {s : State} {i : Instr} {inputs : List Input} (h : nextMove s = .run i inputs)
    (hi : i.domain = .task) : s.tPhase = .idle ∨ taskInProgress s = some i := by
  obtain ⟨_, _, _, -, hacc, -⟩ | hinterrupt | htask := nextMove_run h
  · obtain ⟨-, -, -, -, hidle⟩ := accept_eq_ok.1 hacc
    exact .inl (hidle hi)
  · obtain ⟨-, hd⟩ := interruptInProgress_eq_some hinterrupt
    simp [hi] at hd
  · exact .inr htask

/-- Settles O36: a step that faults ran an operation of the block's level that faulted, and each of those goes
on or is refused (O37). -/
theorem noStepFaults : Obligations.NoStepFaults := by
  intro s hinv e hfault
  obtain ⟨i, inputs, hmove, hexec⟩ := step_eq_fault.1 hfault
  have hs := good_of_inv hinv
  have hpresented : Good { s with inputs := inputs } := hs.of_registers_eq rfl
  obtain ⟨hlevel, -⟩ := hs.nextMove_ok hmove
  have htask : i.domain = .task → s.tPhase = .idle ∨ taskInProgress s = some i := nextMove_run_task hmove
  obtain ⟨t, hnext⟩ | ⟨_, -, -, hrefused⟩ | ⟨_, -, -, hrefused⟩ :=
    everyOperationGoesOn { s with inputs := inputs } i (inv_of_good hpresented) hlevel htask
  · simp [hexec] at hnext
  · simp [hexec] at hrefused
  · simp [hexec] at hrefused

end Sys2Proof.Machine
end

