-- ==== Sys2Proof/Proofs/ExceptionOutcomes.lean ====
section
/-! The failure outcomes (60_exceptions R112 to R117), each with the exact state it leaves, and the event that
arrives during another (R125). -/

namespace Sys2Proof.Machine

/-! ### Task-domain operations that fail at their first micro-step -/

/-- SEND that is not ready or not given a valid frame answers false at T1, whichever it is (R112, R116). -/
theorem exec_send_rejected {s : State} {f : Frame} (hp : s.tPhase = .idle)
    (h : ¬(s.drvState = .ready ∧ validFrame f = true)) :
    exec (.send f) s = .next { s with responses := s.responses ++ [(.t, .rb 0)] } :=
  execSend_eq_next.2 (.inl ⟨hp, h, rfl⟩)

/-- RECV that is not ready or finds the queue empty answers `None`, whichever it is (R116, R117). -/
theorem exec_recv_none {s : State} (hp : s.tPhase = .idle) (h : s.drvState = .ready → s.count = 0) :
    exec .recv s = .next { s with responses := s.responses ++ [(.t, .rf 0)] } :=
  execRecv_eq_next.2 (.inl ⟨hp, h, rfl⟩)

/-- Settles O22: each of the three bounds is a conjunct of `valid_frame` (`validFrame_iff`). -/
theorem invalidFrameIsRejectedBeforeHardware : Obligations.InvalidFrameIsRejectedBeforeHardware := by
  intro s f hp hbad
  refine exec_send_rejected hp fun ⟨_, hvalid⟩ => ?_
  obtain ⟨hdlc, hext, hstd⟩ := validFrame_iff.1 hvalid
  obtain hlong | ⟨he, hid⟩ | ⟨he, hid⟩ := hbad
  · exact Nat.not_lt.2 hdlc hlong
  · exact Nat.not_lt.2 (hstd he) hid
  · exact Nat.not_lt.2 (hext he) hid

/-- Settles O24: T2 makes its one call and answers what it was answered, which is the response of
`exec_send_rejected`. -/
theorem admissionFailureIsReportedOnce : Obligations.AdmissionFailureIsReportedOnce := by
  intro s f h hp hh hanswer
  refine ⟨_, exec_send_t2 f hp hh, rfl, rfl, by rw [hanswer]; rfl, fun u v g hidle hreject hsend => ?_⟩
  have hrejected : ¬(u.drvState = .ready ∧ validFrame g = true) := by
    rintro ⟨hready, hvalid⟩
    rcases hreject with hinvalid | hun
    · simp [hvalid] at hinvalid
    · simp [hready] at hun
  rw [exec_send_rejected hidle hrejected] at hsend
  cases hsend
  rfl

/-- Settles O14: POP and RECV end at P1, RECV with the same word when it is not ready. -/
theorem emptyQueueAnswersNone : Obligations.EmptyQueueAnswersNone := by
  refine fun s hp => ⟨fun hc => execPop_eq_next.2 (.inl ⟨hp, hc, rfl⟩), fun h => ?_⟩
  refine exec_recv_none hp fun hready => h.resolve_right ?_
  simp [hready]

/-- Settles O21: SEND and RECV fail at their ready test, and an event before Ready is ignored (O27, O32). -/
theorem notReadyFailsSafely : Obligations.NotReadyFailsSafely := by
  intro s hd
  have hready : s.drvState ≠ .ready := by simp [hd]
  exact ⟨fun f hp => exec_send_rejected hp fun h => hready h.1,
    fun hp => exec_recv_none hp fun h => absurd h hready,
    fun src hp => foreignEventIsIgnored s src hp (.inl hd),
    fun src => (errorEventsHaveNoEffect s src).1, fun src => (errorEventsHaveNoEffect s src).2⟩

/-! ### Receive overflow and fetch failure -/

/-- W1 of a full queue ends the PUSH (R80, R114). -/
theorem pushW1_of_full (out : Option Port) (f : Frame) {s : State} (hc : s.count = s.params.capacity) :
    pushW1 out f s = pushReturn out false { s with iPhase := .idle } := by
  obtain ⟨-, he⟩ | ⟨hroom, -⟩ := pushW1_cases out f s
  · exact he
  · exact absurd hc hroom

/-- A whole PUSH of a full queue only answers false (R80, R114). -/
theorem pushWhole_of_full (out : Option Port) (f : Frame) {s : State}
    (hc : s.count = s.params.capacity) : pushWhole out f s = .next (pushReturn out false s) :=
  pushWhole_eq_next.2 (.inl ⟨hc, rfl⟩)

/-- PUSH on a full queue answers false in either setting of PARALLEL_DOMAINS (R114). -/
theorem exec_push_of_full {s : State} (f : Frame) (hp : s.iPhase = .idle)
    (hc : s.count = s.params.capacity) :
    exec (.push f) s = .next { s with responses := s.responses ++ [(.w, .rb 0)] } := by
  cases hpar : s.params.parallelDomains with
  | false => exact execPush_eq_next.2 (.inl ⟨hp, hpar, pushWhole_of_full (some .w) f hc⟩)
  | true =>
    refine execPush_eq_next.2 (.inr (.inl ⟨hp, hpar, ?_⟩))
    rw [pushW1_of_full (some .w) f hc, ← hp]
    rfl

/-- Settles O11: the PUSH finds the queue full, on the W-port, inside RXIRQ after its fetch, or at W1. -/
theorem overflowDropsTheNewestFrame : Obligations.OverflowDropsTheNewestFrame := by
  refine ⟨fun _ => exec_push_of_full, fun s src m hp hserial hready hsrc hc hanswer hdlc => ?_,
    fun s src hp hc => ?_⟩
  · have hdropped := pushWhole_of_full none (translateRx m) (s := (callGetRx src s).2) hc
    rw [exec_rxirq_of_own_handle hp hready hsrc]
    exact rxDeliver_eq_next.2 (.inr ⟨m, hanswer, rxDlcBad_eq_false hdlc, .inl ⟨hserial, hdropped⟩⟩)
  · rw [exec_rxirq_of_busy src hp nofun]
    exact pushResume_eq_next.2 (.inr (.inl ⟨hp, (pushW1_of_full none s.iFrame hc).symm⟩))

/-- Settles O28: the one `GetRx` call is made, and its `None` delivers nothing. -/
theorem fetchFailurePushesNothing : Obligations.FetchFailurePushesNothing := by
  intro s src hp hready hsrc hanswer
  rw [exec_rxirq_of_own_handle hp hready hsrc]
  exact rxDeliver_eq_next.2 (.inl ⟨hanswer, rfl⟩)

/-! ### An event during an event -/

/-- An interrupt-domain operation accepted while one is in progress waits where it stands (R125, log 14). -/
theorem commandMove_of_busy {s : State} {agent : Domain} {port : Port} {cw : CmdWord}
    {rest : List Input} {i j : Instr} (h : accept agent port cw s = .ok i) (hi : i.domain = .interrupt)
    (hj : interruptInProgress s = some j) : commandMove agent port cw rest s = .run j s.inputs := by
  simp [commandMove, h, hi, hj]

/-- Settles O55: the step runs the operation in progress, with the inputs as they stand. -/
theorem eventDuringAnEventWaits : Obligations.EventDuringAnEventWaits := by
  intro s cw rest i hin hdec hl hi hp
  have hacc : accept .interrupt i.port cw s = .ok i :=
    accept_eq_ok.2 ⟨hdec, rfl, hl, hi, fun ht => by simp [hi] at ht⟩
  have hstep {j : Instr} (hj : interruptInProgress s = some j) : step s = exec j s :=
    step_of_run ((nextMove_command hin).trans (commandMove_of_busy hacc hi hj))
  refine ⟨fun hq => hstep ?_, fun hd => hstep ?_⟩
  · rw [interruptInProgress_of_push hp, if_pos hq]
  · rw [interruptInProgress_of_push hp, if_neg (by simp [hd])]

end Sys2Proof.Machine
end

