-- ==== Sys2Proof/Proofs/HazardsCompletion.lean ====
section
/-! What the block does with nothing presented (70_reset R148, R155, log 4): the operations in progress go on,
the interrupt domain's first, and every step leaves fewer micro-steps to go. -/

namespace Sys2Proof.Machine

/-! ### The step with nothing presented -/

/-- The interrupt domain's operation goes on first (R123 a). -/
theorem step_of_interruptInProgress {s : State} {i : Instr} (hin : s.inputs = [])
    (hi : interruptInProgress s = some i) : step s = exec i s := by
  have hmove : nextMove s = .run i s.inputs := by simp [nextMove, hin, hi]
  exact step_of_run hmove

/-- The task domain's operation goes on when the interrupt domain is idle (log 4). -/
theorem step_of_taskInProgress {s : State} {i : Instr} (hin : s.inputs = []) (hp : s.iPhase = .idle)
    (hi : taskInProgress s = some i) : step s = exec i s := by
  have hmove : nextMove s = .run i s.inputs := by
    simp [nextMove, resumeMove, hin, interruptInProgress_of_idle hp, hi]
  exact step_of_run hmove

theorem step_of_quiescent {s : State} (hin : s.inputs = []) (hq : Quiescent s) : step s = .next s := by
  obtain ⟨ht, hp⟩ := hq
  have hmove : nextMove s = .rest s.inputs := by
    simp [nextMove, resumeMove, hin, interruptInProgress_of_idle hp, taskInProgress_of_idle ht]
  exact step_of_rest hmove

/-- Settles O56: domain by domain and phase by phase, the operation in progress. -/
theorem nothingPresentedOnlyFinishes : Obligations.NothingPresentedOnlyFinishes := by
  refine fun s hin => ⟨step_of_quiescent hin, fun hp hl => ?_, fun hp hl => ?_, fun hp ht => ?_,
    fun hp ht => ?_, fun hp ht => ⟨fun hl => ?_, fun hl => ?_⟩⟩
  · exact step_of_interruptInProgress hin ((interruptInProgress_of_push hp).trans (by simp [hl]))
  · exact step_of_interruptInProgress hin ((interruptInProgress_of_push hp).trans (by simp [hl]))
  · exact step_of_taskInProgress hin hp (taskInProgress_of_init ht)
  · exact step_of_taskInProgress hin hp (taskInProgress_of_send ht)
  · exact step_of_taskInProgress hin hp ((taskInProgress_of_pop ht).trans (by simp [hl]))
  · exact step_of_taskInProgress hin hp ((taskInProgress_of_pop ht).trans (by simp [hl]))

/-! ### Micro-steps to go -/

/-- The most micro-steps the task-domain operation in progress can still take (R81, R90, R91). -/
@[simp] def TPhase.stepsLeft (p : TPhase) : Nat :=
  match p with
  | .idle => 0
  | .p2 => 3
  | .p3 => 2
  | .p4 => 1
  | .i2 => 2
  | .i3 => 1
  | .t2 => 1

/-- The most micro-steps the PUSH in progress can still take (R80, R150 d). -/
@[simp] def IPhase.stepsLeft (p : IPhase) : Nat :=
  match p with
  | .idle => 0
  | .w1 => 4
  | .w2 => 3
  | .w3 => 2
  | .w4 => 1

/-- Both domains together: seven for a POP at P2 beside a PUSH at W1. -/
def stepsLeft (s : State) : Nat := s.tPhase.stepsLeft + s.iPhase.stepsLeft

theorem TPhase.stepsLeft_le (p : TPhase) : p.stepsLeft ≤ 3 := by cases p <;> decide

theorem IPhase.stepsLeft_le (p : IPhase) : p.stepsLeft ≤ 4 := by cases p <;> decide

theorem stepsLeft_le (s : State) : stepsLeft s ≤ 7 :=
  Nat.add_le_add s.tPhase.stepsLeft_le s.iPhase.stepsLeft_le

/-! ### Every micro-step leaves fewer to go -/

/-- P2 to P4 (R81). -/
theorem popResume_stepsLeft {out : Port} {s t : State} (h : popResume out s = .next t) :
    t.tPhase.stepsLeft < s.tPhase.stepsLeft := by
  obtain ⟨hp, -, _, -, rfl⟩ | ⟨hp, rfl⟩ | ⟨hp, -, rfl⟩ := popResume_eq_next.1 h <;>
    simp [hp]

/-- I2 and I3 (R90): answered false, I2 ends the operation at once. -/
theorem execInit_stepsLeft {hd : Handle} {s t : State} (hp : s.tPhase ≠ .idle)
    (h : execInit hd s = .next t) : t.tPhase.stepsLeft < s.tPhase.stepsLeft := by
  obtain ⟨hidle, -⟩ | ⟨hi2, rfl⟩ | ⟨hi3, rfl⟩ := execInit_eq_next.1 h
  · exact absurd hidle hp
  · rw [initI2_eq, hi2]
    split <;> simp
  · rw [initI3_eq, hi3]
    dsimp only
    split <;> simp

/-- T2 (R91), with a handle or without. -/
theorem execSend_stepsLeft {f : Frame} {s t : State} (hp : s.tPhase ≠ .idle)
    (h : execSend f s = .next t) : t.tPhase.stepsLeft < s.tPhase.stepsLeft := by
  obtain ⟨hidle, -⟩ | ⟨hidle, -⟩ | ⟨ht2, rfl⟩ := execSend_eq_next.1 h
  · exact absurd hidle hp
  · exact absurd hidle hp
  · rw [ht2]
    unfold sendT2
    split <;> simp

/-- A task-domain operation that goes on from a busy task domain. -/
theorem exec_task_stepsLeft {i : Instr} {s t : State} (hi : i.domain = .task) (hp : s.tPhase ≠ .idle)
    (h : exec i s = .next t) : t.tPhase.stepsLeft < s.tPhase.stepsLeft := by
  cases i with
  | pop =>
    obtain ⟨hidle, -⟩ | ⟨hidle, -⟩ | hresume := execPop_eq_next.1 h
    · exact absurd hidle hp
    · exact absurd hidle hp
    · exact popResume_stepsLeft hresume
  | size => exact absurd (execSize_eq_next.1 h).1 hp
  | recv =>
    obtain ⟨hidle, -⟩ | ⟨hidle, -⟩ | hresume := execRecv_eq_next.1 h
    · exact absurd hidle hp
    · exact absurd hidle hp
    · exact popResume_stepsLeft hresume
  | init hd => exact execInit_stepsLeft hp h
  | send f => exact execSend_stepsLeft hp h
  | push | rxirq | errirq | boffirq => cases hi

@[simp] theorem pushReturn_iPhase (out : Option Port) (ok : Bool) (s : State) :
    (pushReturn out ok s).iPhase = s.iPhase := by
  rw [pushReturn_eq]

/-- W1 to W4 (R80): a full queue ends the PUSH at W1. -/
theorem pushResume_stepsLeft {out : Option Port} {s t : State} (hp : s.iPhase ≠ .idle)
    (h : pushResume out s = .next t) : t.iPhase.stepsLeft < s.iPhase.stepsLeft := by
  obtain ⟨hidle, -⟩ | ⟨hw, rfl⟩ | ⟨hw, -, rfl⟩ | ⟨hw, rfl⟩ | ⟨hw, -, rfl⟩ := pushResume_eq_next.1 h
  · exact absurd hidle hp
  · obtain ⟨-, he⟩ | ⟨-, he⟩ := pushW1_cases out s.iFrame s <;> simp [he, hw]
  · simp [hw]
  · simp [hw]
  · simp [hw]

/-- The interrupt-domain operation in progress goes on with the next micro-step of its PUSH. -/
theorem Good.interruptInProgress_goes_on {s : State} (hs : Good s) {i : Instr}
    (h : interruptInProgress s = some i) :
    ∃ out t, pushResume out s = .next t ∧ exec i s = .next t := by
  obtain ⟨hp, -⟩ := interruptInProgress_eq_some h
  rw [interruptInProgress_of_push hp] at h
  cases h
  split
  · obtain ⟨t, ht⟩ := hs.pushResume_goes_on (some .w)
    exact ⟨_, t, ht, exec_push_of_busy _ hp ht⟩
  · obtain ⟨t, ht⟩ := hs.pushResume_goes_on none
    exact ⟨_, t, ht, (exec_rxirq_of_busy _ rfl hp).trans ht⟩

/-! ### Completion -/

/-- A busy interrupt domain takes the step, and the task domain keeps its phase. -/
theorem Good.step_interrupt_stepsLeft {s : State} (hs : Good s) (hin : s.inputs = [])
    (hp : s.iPhase ≠ .idle) : ∃ t, step s = .next t ∧ t.inputs = [] ∧ stepsLeft t < stepsLeft s := by
  have hi := interruptInProgress_of_push hp
  obtain ⟨out, t, hresume, hexec⟩ := hs.interruptInProgress_goes_on hi
  have hless := pushResume_stepsLeft hp hresume
  obtain ⟨hframe, -, -⟩ := pushResume_interruptFrame hresume
  have htask : t.tPhase = s.tPhase := by rw [hframe]
  refine ⟨t, (step_of_interruptInProgress hin hi).trans hexec, by rw [hframe, hin], ?_⟩
  rw [stepsLeft, stepsLeft, htask]
  exact Nat.add_lt_add_left hless _

/-- Else a busy task domain takes it, and the interrupt domain stays idle. -/
theorem Good.step_task_stepsLeft {s : State} (hs : Good s) (hin : s.inputs = [])
    (hidle : s.iPhase = .idle) {i : Instr} (hi : taskInProgress s = some i) :
    ∃ t, step s = .next t ∧ t.inputs = [] ∧ stepsLeft t < stepsLeft s := by
  obtain ⟨hp, hdomain⟩ := taskInProgress_eq_some hi
  obtain ⟨t, hexec⟩ := hs.taskInProgress_goes_on hi
  have hless := exec_task_stepsLeft hdomain hp hexec
  obtain ⟨hframe, -⟩ := exec_taskFrame hdomain hexec
  have hinterrupt : t.iPhase = s.iPhase := by rw [hframe]
  refine ⟨t, (step_of_taskInProgress hin hidle hi).trans hexec, by rw [hframe, hin], ?_⟩
  rw [stepsLeft, stepsLeft, hinterrupt]
  exact Nat.add_lt_add_right hless _

theorem taskInProgress_eq_none {s : State} : taskInProgress s = none ↔ s.tPhase = .idle := by
  cases hp : s.tPhase <;> simp [taskInProgress, hp]

/-- A good state with nothing presented is quiescent, or its step goes on and leaves fewer to go. -/
theorem Good.quiescent_or_step {s : State} (hs : Good s) (hin : s.inputs = []) :
    Quiescent s ∨ ∃ t, step s = .next t ∧ t.inputs = [] ∧ stepsLeft t < stepsLeft s := by
  by_cases hinterrupt : s.iPhase = .idle
  · cases htask : taskInProgress s with
    | none => exact .inl ⟨taskInProgress_eq_none.1 htask, hinterrupt⟩
    | some i => exact .inr (hs.step_task_stepsLeft hin hinterrupt htask)
  · exact .inr (hs.step_interrupt_stepsLeft hin hinterrupt)

/-- Every step keeps `Good` and leaves fewer micro-steps to go, so `n` steps are enough for `n` of them. -/
theorem Good.completes {n : Nat} {s : State} (hs : Good s) (hin : s.inputs = []) (hn : stepsLeft s ≤ n) :
    ∃ k ≤ n, ∃ t, runSteps k s = .next t ∧ Quiescent t ∧ Good t ∧ t.inputs = [] := by
  induction n generalizing s with
  | zero =>
    obtain hq | ⟨_, -, -, hless⟩ := hs.quiescent_or_step hin
    · exact ⟨0, le_rfl, s, runSteps_zero s, hq, hs, hin⟩
    · omega
  | succ n ih =>
    obtain hq | ⟨u, hstep, hinputs, hless⟩ := hs.quiescent_or_step hin
    · exact ⟨0, Nat.zero_le _, s, runSteps_zero s, hq, hs, hin⟩
    · obtain ⟨k, hk, t, hrun, hdone⟩ := ih (step_good hs hstep) hinputs (by omega)
      exact ⟨k + 1, Nat.succ_le_succ hk, t, (runSteps_of_step k hstep).trans hrun, hdone⟩

/-- Settles O50: at most seven micro-steps are to go. -/
theorem startedOperationsComplete : Obligations.StartedOperationsComplete := by
  intro s hinv hin
  obtain ⟨k, hk, t, hrun, hquiescent, hgood, hinputs⟩ := (good_of_inv hinv).completes hin (stepsLeft_le s)
  exact ⟨k, hk, t, hrun, hquiescent, inv_of_good hgood, hinputs⟩

end Sys2Proof.Machine
end

/-! The words the spec writes out (95_test_vectors 2.1): a legal one is the encoding of its operation, which
decodes by O1; a reserved one breaks one rule of R66. -/

namespace Sys2Proof

theorem decode_of_encode_eq {hw : Nat} {i : Instr} {cw : CmdWord} (hcw : encode i = cw)
    (hi : i.wellFormed hw = true) : decode hw cw = .ok i :=
  hcw ▸ decodeOfEncodeIsIdentity hw i hi

theorem decode_of_mbz_set {hw : Nat} (row : Instr) {cw : CmdWord} (hop : opcodeOf cw = row.opcode)
    (hmbz : row.mbzZero hw cw = false) : decode hw cw = .error .nonZeroMbz := by
  rw [decode_of_opcode hop, if_neg (by simp [hmbz])]

/-- Settles O4: each legal word is encoded from its operation, and each reserved one shows its opcode or its
MBZ bit. -/
theorem specVectorsDecode : Obligations.SpecVectorsDecode := by
  refine ⟨?pop, ?size, ?recv, ?init, ?rxirq, ?send, ?push, ?opcode7, ?popMbz, ?pushMbz, ?initMbz⟩
  case pop | size | recv | init | rxirq | send | push => exact decode_of_encode_eq (by decide) (by decide)
  case opcode7 => exact decode_of_reserved (by decide)
  case popMbz => exact decode_of_mbz_set .pop (by decide) (by decide)
  case pushMbz => exact decode_of_mbz_set (.push Frame.zero) (by decide) (by decide)
  case initMbz => exact decode_of_mbz_set (.init 0) (by decide) (by decide)

end Sys2Proof
